-- ==== Sys2Proof/Word.lean ====
section
/-!
DEFINITION. The machine's word types (spec 00_scope.md R11, 40_round_functions.md R100). Everything in the CORE is
unsigned; `+`, `-`, `^^^` on these types are the wrapping operations of R101 to R103.
-/

namespace Sys2Proof

/-- A byte, `0 .. 255` (00_scope.md section 5). -/
abbrev Byte := BitVec 8

/-- A Word: "a 32-bit unsigned integer with wraparound" (R100). -/
abbrev Word := BitVec 32

/-- A rotation amount, `0 .. 31`, held in 5 bits (R11, R21). -/
abbrev Rot := BitVec 5

/-- The 64-bit keystream block counter (R25). -/
abbrev Count := BitVec 64

end Sys2Proof
end

