-- ==== Sys2Proof/Config.lean ====
section
/-!
DEFINITION. The configuration a CORE is built with (spec 00_scope.md R5 to R11, 70_reset_and_hazards.md R218) and the
free values of the spec: the contents R41 leaves unspecified after a reset. Every operation of the model takes a
`Config`; the machine itself runs under `Config.built`, an opaque constant, so nothing can be proved of a machine that
does not hold for every configuration and every draw.
-/

namespace Sys2Proof

/-- `F_SUB_ORDER` (R8): the operand order of the subtraction in step 1 of F3 and F4. -/
inductive SubOrder
  /-- `D_MINUS_KM`, the spec's default. -/
  | dMinusKm
  /-- `KM_MINUS_D`. -/
  | kmMinusD
deriving DecidableEq, Repr, Inhabited

/-- `F_GROUPING` (R9): how the printed combination formulas of F3 and F5 group. -/
inductive Grouping
  /-- `LEFT_TO_RIGHT`, the spec's default. -/
  | leftToRight
  /-- `C_PRECEDENCE`. -/
  | cPrecedence
deriving DecidableEq, Repr, Inhabited

/-- The four substitution tables S1 to S4 (R6). -/
inductive STable
  | s1 | s2 | s3 | s4
deriving DecidableEq, Repr, Inhabited

/-- What is fixed when the CORE is built (R218), and the draws of unspecified contents (R41, R215, R217).
The draws carry the number of the reset (0 is power-on) and the content before it, so that a CORE that clears, one that
keeps its old contents and one that does neither are all covered. DESIGN CHOICE, log entries 1 to 5: unsafe only in
that a draw depends on nothing else. -/
structure Config where
  /-- `SBOX[i][x]` (R6): no source gives any entry, and the model assumes nothing of it. -/
  sbox : STable → Byte → Word
  /-- `DODECAD_COUNT` (R7): dodecads per key-schedule round, any natural number. -/
  dodecadCount : Nat
  /-- `F_SUB_ORDER` (R8). -/
  fSubOrder : SubOrder
  /-- `F_GROUPING` (R9). -/
  fGrouping : Grouping
  /-- `DBUF_BYTES - 24` (R10): `DBUF_BYTES` runs over `24 .. 65535`. -/
  dbufTail : Fin 65512
  /-- Free value: `KM[i]` after reset number `n`, given its content before (R41). -/
  resetKm : Nat → Nat → Word → Word
  /-- Free value: `KR[i]` after reset number `n`, given its content before (R41). -/
  resetKr : Nat → Nat → Rot → Rot
  /-- Free value: `NONCE[i]` after reset number `n`, given its content before (R41). -/
  resetNonce : Nat → Nat → Byte → Byte
  /-- Free value: `KS[i]` after reset number `n`, given its content before (R41). -/
  resetKs : Nat → Nat → Byte → Byte
  /-- Free value: the buffer byte at a host address after reset number `n`, given the byte last written there (R41). -/
  resetByte : Nat → Nat → Byte → Byte
  /-- Free value: what a buffer byte reads as that was never written, since reset number `n` (R41). -/
  unwritten : Nat → Nat → Byte
deriving Inhabited

/-- `DBUF_BYTES` (R10), the size of the data buffer; `24 ≤ DBUF_BYTES ≤ 65535` by construction. -/
def Config.dbufBytes (cfg : Config) : Nat := cfg.dbufTail.val + 24

/-- The configuration of the one CORE this model is about (R218). OPAQUE: no source fixes its fields. -/
opaque Config.built : Config

end Sys2Proof
end

