-- ==== Sys2Proof/Machine/Bytes.lean ====
section
/-!
DEFINITION. Byte order (spec 20_memory.md R56): every multi-byte quantity is big-endian, most significant byte at the
lowest index, and nothing switches it.
-/

namespace Sys2Proof.Machine

/-- `BE32(b0, b1, b2, b3) = b0·2^24 + b1·2^16 + b2·2^8 + b3` (R56). -/
def be32 (b0 b1 b2 b3 : Byte) : Word := b0 ++ b1 ++ b2 ++ b3

/-- Byte `k` of `Bytes32(w)`, `k = 0` the most significant (R56); also the byte split `I(k+1)` of R106. -/
def byte32 (w : Word) (k : Fin 4) : Byte := w.extractLsb' (8 * (3 - k.val)) 8

/-- Byte `k` of `Bytes64(c)`, `k = 0` the most significant (R56). -/
def byte64 (c : Count) (k : Fin 8) : Byte := c.extractLsb' (8 * (7 - k.val)) 8

/-- `Bytes64(c)` (R56). -/
def bytes64 (c : Count) : Vector Byte 8 := Vector.ofFn (byte64 c)

/-- The big-endian unsigned integer a byte string spells, first byte most significant (R56, R170). -/
def natOfBytes (bs : List Byte) : Nat := bs.foldl (fun acc b => acc * 256 + b.toNat) 0

end Sys2Proof.Machine
end

