-- ==== Sys2Proof/Machine/Rounds.lean ====
section
/-!
DEFINITION. Word rotation, the substitution engine and the round functions F1 to F6 (spec 40_round_functions.md).
Wrapping addition, subtraction and XOR of Words (R101 to R103) are `+`, `-` and `^^^` of `Word`.
-/

namespace Sys2Proof.Machine

/-- `rotl32(a, n)` for `n` in 0..31 (R104). -/
def rotl32 (a : Word) (n : Rot) : Word := a.rotateLeft n.toNat

/-- The six round functions (R108). -/
inductive RoundFn
  | f1 | f2 | f3 | f4 | f5 | f6
deriving DecidableEq, Repr

/-- Step 1, the key combination (R109): add for F1, F5; XOR for F2, F6; subtract for F3, F4. -/
def combineKey (cfg : Config) (f : RoundFn) (d km : Word) : Word :=
  match f with
  | .f1 | .f5 => d + km
  | .f2 | .f6 => d ^^^ km
  | .f3 | .f4 =>
    match cfg.fSubOrder with
    | .dMinusKm => d - km
    | .kmMinusD => km - d

/-- Step 5, the combination of the four looked-up Words (R110 to R116). -/
def combineLookups (cfg : Config) (f : RoundFn) (a b c e : Word) : Word :=
  match f with
  | .f1 => ((a ^^^ b) - c) + e
  | .f2 => ((a - b) + c) ^^^ e
  | .f3 =>
    match cfg.fGrouping with
    | .leftToRight => ((a + b) ^^^ c) - e
    | .cPrecedence => (a + b) ^^^ (c - e)
  | .f4 => ((a ^^^ b) + c) - e
  | .f5 =>
    match cfg.fGrouping with
    | .leftToRight => ((a - b) ^^^ c) + e
    | .cPrecedence => (a - b) ^^^ (c + e)
  | .f6 => ((a + b) - c) ^^^ e

/-- Steps 3 to 5: split `r` into bytes (R106), look each up in its own table (R107), combine. -/
def substitute (cfg : Config) (f : RoundFn) (r : Word) : Word :=
  combineLookups cfg f (cfg.sbox .s1 (byte32 r 0)) (cfg.sbox .s2 (byte32 r 1))
    (cfg.sbox .s3 (byte32 r 2)) (cfg.sbox .s4 (byte32 r 3))

/-- `Fi(d, km, kr)` (R108): pure and total. -/
def roundF (cfg : Config) (f : RoundFn) (d km : Word) (kr : Rot) : Word :=
  substitute cfg f (rotl32 (combineKey cfg f d km) kr)

end Sys2Proof.Machine
end

