-- ==== Sys2Proof/Machine/State.lean ====
section
/-!
DEFINITION. The machine's state (spec 10_state.md R20 to R42), the host's pending port accesses, and the state right
after reset (R41, R215). Plain data throughout.
-/

namespace Sys2Proof.Machine

/-- The four result codes of a command (R29, R190). They are values of `LAST_ERR`, not stops of the machine. -/
inductive ErrCode
  /-- 0 `OK`. -/
  | ok
  /-- 1 `NOT_INITIALISED` (R191). -/
  | notInitialised
  /-- 2 `INVALID_LENGTH` (R192). -/
  | invalidLength
  /-- 3 `ILLEGAL_COMMAND` (R193). -/
  | illegalCommand
deriving DecidableEq, Repr

/-- The operand buffers, which have a host path (R34 to R37). -/
inductive Buffer
  | keybuf | noncebuf | seekbuf | dbuf
deriving DecidableEq, Repr

/-- The KeySet: 72 masking keys and 72 rotation keys (R20, R21, R23). -/
structure KeySet where
  /-- `KM[0..71]` (R20). -/
  km : Vector Word 72
  /-- `KR[0..71]` (R21). -/
  kr : Vector Rot 72
deriving DecidableEq, Repr

/-- What can reach the CORE from outside: one host access of the port (R59, R90), or a reset (R215). The model's own
type: the spec's host is an agent (R12), and its accesses come in one total order (R61). DESIGN CHOICE, log entry 6:
safe, the list of events is arbitrary. -/
inductive HostEvent
  /-- `MemRead(addr, n)` (R59). -/
  | read (addr n : Nat)
  /-- `MemWrite(addr, n, v)` (R59). An `n = 1` write carries its byte in `v[7:0]` (DESIGN CHOICE, log entry 10: safe). -/
  | write (addr n : Nat) (v : Word)
  /-- `Reset`, between two host accesses (R215). -/
  | reset
deriving DecidableEq, Repr

/-- The bytes of the four buffers that have been written, by host address (R51), addresses strictly rising. A byte that
is not listed has no value of its own: it still holds what the reset drew for it (R41). DESIGN CHOICE, log entry 4. -/
abbrev Memory := List Host.Cell

/-- The canonical form of `Memory`: addresses strictly rising. An unlisted address reads as no value, so no entry can
equal what an unlisted address reads as. -/
abbrev Memory.wf (m : Memory) : Prop := m.Pairwise fun x y => x.1 < y.1

/-- All state of the CORE (10_state.md section 1), and three fields of the model's own. -/
@[ext]
structure State where
  /-- `KM`, `KR` (R20, R21). -/
  keys : KeySet
  /-- `KEYED` (R22). -/
  keyed : Bool
  /-- `NONCE[0..15]` (R24). -/
  nonce : Vector Byte 16
  /-- `CTR`, the number of the next keystream block (R25). -/
  ctr : Count
  /-- `KS[0..23]`, the keystream buffer (R26). -/
  ks : Vector Byte 24
  /-- `CUR`, the cursor, 5 bits; 24 is empty (R27). -/
  cur : BitVec 5
  /-- `CTR_READY` (R28). -/
  ctrReady : Bool
  /-- `LAST_ERR` (R29). -/
  lastErr : ErrCode
  /-- `ERR_SEEN` (R30). -/
  errSeen : Bool
  /-- `KEYBUF`, `NONCEBUF`, `SEEKBUF`, `DBUF` (R34 to R37) at their host addresses (R51). -/
  mem : Memory
  /-- The model's own: how many resets came after power-on; it numbers the draws of R41 (log entry 5). -/
  draw : Nat
  /-- The model's own: what the host will do next at the port, oldest first (R12, R61; log entry 6). -/
  port : List HostEvent
  /-- The model's own: the values the port has returned to the host's reads, newest first (R59; log entry 8). -/
  answers : List Word
deriving DecidableEq, Repr

/-- Faults: THERE ARE NONE, so the type has no constructor. "No command hangs, no command is partial" (R13), and the
three error classes of R190 are next states that set `LAST_ERR`. DEDUCED, log entry 11: safe. -/
inductive Fault
deriving DecidableEq, Repr

/-- Why the model gives a step no meaning. -/
inductive Refusal
  /-- Raised by an arm of `exec` whose instruction has no meaning yet; no arm of this model raises it. Safe. -/
  | notModelled (mnemonic : String)
  /-- Raised by the port for an access at an address the map of R51 does not hold: "refused" (R53). Safe. -/
  | unmappedAddress
  /-- Raised by the port for an access at an address inside `CMD` or `STATUS` but not its base (R53). Safe. -/
  | insideRegister
  /-- Raised by the port for an access of a width R52 does not give at that address (R53). Safe. -/
  | wrongWidth
deriving DecidableEq, Repr

/-- The state right after the power-on reset (R41, R215, R216): the flags, `CUR` and `CTR` as R41 says; `KM`, `KR`,
`NONCE`, `KS` the unknown values `Config.built` draws (R41 "unspecified"; the last argument, the content before, is
a placeholder at power-on); no buffer byte listed; nothing pending at the port. DESIGN CHOICE for the unspecified
contents, log entries 2 to 4. -/
def State.reset : State where
  keys :=
    { km := Vector.ofFn fun i => Config.built.resetKm 0 i.val 0#32
      kr := Vector.ofFn fun i => Config.built.resetKr 0 i.val 0#5 }
  keyed := false
  nonce := Vector.ofFn fun i => Config.built.resetNonce 0 i.val 0#8
  ctr := 0#64
  ks := Vector.ofFn fun i => Config.built.resetKs 0 i.val 0#8
  cur := 24#5
  ctrReady := false
  lastErr := .ok
  errSeen := false
  mem := []
  draw := 0
  port := []
  answers := []

end Sys2Proof.Machine
end

