-- ==== Sys2Proof/Machine/BlockCipher.lean ====
section
/-!
DEFINITION. HEXAD, HEXADINV, block packing and the two twelve-round sequences (spec 42_block_cipher.md R140 to R146).
-/

namespace Sys2Proof.Machine

/-- The 6-word block of the data transform (R38, R140); `x0 .. x5` are the document's `A .. F`. -/
structure DataBlock where
  x0 : Word
  x1 : Word
  x2 : Word
  x3 : Word
  x4 : Word
  x5 : Word
deriving DecidableEq, Repr

/-- `Fi` applied to a block word under the key pair `idx + j` of the KeySet (R140). -/
def keyedF (cfg : Config) (keys : KeySet) (idx : Fin 67) (f : RoundFn) (j : Fin 6) (d : Word) : Word :=
  roundF cfg f d (keys.km[idx.val + j.val]) (keys.kr[idx.val + j.val])

/-- `HEXAD(x, idx)` (R140): each statement reads the already updated value of its input word. -/
def hexad (cfg : Config) (keys : KeySet) (idx : Fin 67) (x : DataBlock) : DataBlock :=
  let x4 := x.x4 ^^^ keyedF cfg keys idx .f1 0 x.x5
  let x3 := x.x3 ^^^ keyedF cfg keys idx .f2 1 x4
  let x2 := x.x2 ^^^ keyedF cfg keys idx .f3 2 x3
  let x1 := x.x1 ^^^ keyedF cfg keys idx .f4 3 x2
  let x0 := x.x0 ^^^ keyedF cfg keys idx .f5 4 x1
  let x5 := x.x5 ^^^ keyedF cfg keys idx .f6 5 x0
  ⟨x0, x1, x2, x3, x4, x5⟩

/-- `HEXADINV(x, idx)` (R141): the same six applications in reverse order, each input word read before a later
statement changes it. -/
def hexadInv (cfg : Config) (keys : KeySet) (idx : Fin 67) (x : DataBlock) : DataBlock :=
  let x5 := x.x5 ^^^ keyedF cfg keys idx .f6 5 x.x0
  let x0 := x.x0 ^^^ keyedF cfg keys idx .f5 4 x.x1
  let x1 := x.x1 ^^^ keyedF cfg keys idx .f4 3 x.x2
  let x2 := x.x2 ^^^ keyedF cfg keys idx .f3 2 x.x3
  let x3 := x.x3 ^^^ keyedF cfg keys idx .f2 1 x.x4
  let x4 := x.x4 ^^^ keyedF cfg keys idx .f1 0 x5
  ⟨x0, x1, x2, x3, x4, x5⟩

/-- `PackBlock(b)` (R143). -/
def packBlock (b : Vector Byte 24) : DataBlock where
  x0 := be32 b[0] b[1] b[2] b[3]
  x1 := be32 b[4] b[5] b[6] b[7]
  x2 := be32 b[8] b[9] b[10] b[11]
  x3 := be32 b[12] b[13] b[14] b[15]
  x4 := be32 b[16] b[17] b[18] b[19]
  x5 := be32 b[20] b[21] b[22] b[23]

/-- Word `j` of a data block (R140). -/
def DataBlock.word (x : DataBlock) : Fin 6 → Word
  | 0 => x.x0
  | 1 => x.x1
  | 2 => x.x2
  | 3 => x.x3
  | 4 => x.x4
  | 5 => x.x5

/-- `UnpackBlock(x)` (R144): bytes `4j .. 4j+3` are `Bytes32(x[j])`. -/
def unpackBlock (x : DataBlock) : Vector Byte 24 :=
  Vector.ofFn fun i => byte32 (x.word ⟨i.val / 4, by omega⟩) ⟨i.val % 4, Nat.mod_lt _ (by decide)⟩

/-- The offsets of the first half of a block encryption, ascending (R145). -/
def firstHalf : List (Fin 67) := [0, 6, 12, 18, 24, 30]

/-- The offsets of the second half of a block encryption, ascending (R145). -/
def secondHalf : List (Fin 67) := [36, 42, 48, 54, 60, 66]

/-- HEXAD at each offset of the list, in its order. -/
def hexads (cfg : Config) (keys : KeySet) (offsets : List (Fin 67)) (x : DataBlock) : DataBlock :=
  offsets.foldl (fun x idx => hexad cfg keys idx x) x

/-- HEXADINV at each offset of the list, in its order. -/
def hexadInvs (cfg : Config) (keys : KeySet) (offsets : List (Fin 67)) (x : DataBlock) : DataBlock :=
  offsets.foldl (fun x idx => hexadInv cfg keys idx x) x

/-- `EncryptBlock(b)` (R145). -/
@[irreducible] def encryptBlock (cfg : Config) (keys : KeySet) (b : Vector Byte 24) : Vector Byte 24 :=
  unpackBlock (hexadInvs cfg keys secondHalf (hexads cfg keys firstHalf (packBlock b)))

/-- `DecryptBlock(b)` (R146): HEXAD at offsets 66 down to 36, then HEXADINV at offsets 30 down to 0. -/
@[irreducible] def decryptBlock (cfg : Config) (keys : KeySet) (b : Vector Byte 24) : Vector Byte 24 :=
  unpackBlock (hexadInvs cfg keys firstHalf.reverse (hexads cfg keys secondHalf.reverse (packBlock b)))

end Sys2Proof.Machine
end

