-- ==== Sys2Proof/Machine/KeySchedule.lean ====
section
/-!
DEFINITION. Schedule constants, DODECAD, key packing and round-key derivation (spec 41_key_schedule.md R120 to R126).
-/

namespace Sys2Proof.Machine

/-- `TM(n)`, the masking constants (R120). -/
def scheduleTm (n : Nat) : Word := BitVec.ofNat 32 (0x5A827999 + n * 0x6ED9EBA1)

/-- `TR(n)`, the rotation constants (R121): `(19 + 17·n) mod 32`. -/
def scheduleTr (n : Nat) : Rot := BitVec.ofNat 5 (19 + 17 * n)

/-- The 12-word block of the key schedule (R38). -/
abbrev KeyBlock := Vector Word 12

/-- One statement of DODECAD: `w[tgt] ^= fn(w[src], M(off + k), R(off + k))` (R123). -/
structure DodecadRow where
  k : Nat
  fn : RoundFn
  tgt : Fin 12
  src : Fin 12
deriving DecidableEq, Repr

/-- The twelve statements of DODECAD in their order (R123). -/
def dodecadRows : List DodecadRow :=
  [ ⟨0, .f1, 10, 11⟩, ⟨1, .f2, 9, 10⟩, ⟨2, .f3, 8, 9⟩, ⟨3, .f4, 7, 8⟩, ⟨4, .f5, 6, 7⟩, ⟨5, .f6, 5, 6⟩,
    ⟨6, .f1, 4, 5⟩, ⟨7, .f2, 3, 4⟩, ⟨8, .f3, 2, 3⟩, ⟨9, .f4, 1, 2⟩, ⟨10, .f5, 0, 1⟩, ⟨11, .f6, 11, 0⟩ ]

/-- One statement of DODECAD on the block as the statements before it left it (R123). -/
def dodecadStep (cfg : Config) (M : Nat → Word) (R : Nat → Rot) (off : Nat) (w : KeyBlock) (row : DodecadRow) :
    KeyBlock :=
  w.set row.tgt.val (w[row.tgt] ^^^ roundF cfg row.fn w[row.src] (M (off + row.k)) (R (off + row.k)))

/-- `DODECAD(w, M, R, off)` (R123). -/
def dodecad (cfg : Config) (M : Nat → Word) (R : Nat → Rot) (off : Nat) (w : KeyBlock) : KeyBlock :=
  dodecadRows.foldl (dodecadStep cfg M R off) w

/-- `count` dodecads in sequence, the first being application number `m`, which uses the schedule constants
`12m .. 12m + 11` (R125). -/
def dodecads (cfg : Config) (m : Nat) : Nat → KeyBlock → KeyBlock
  | 0, w => w
  | count + 1, w => dodecads cfg (m + 1) count (dodecad cfg scheduleTm scheduleTr (12 * m) w)

/-- The block after the dodecads of round `r`; it is never reset between rounds (R125). -/
def scheduleBlock (cfg : Config) (w : KeyBlock) : Nat → KeyBlock
  | 0 => dodecads cfg 0 cfg.dodecadCount w
  | r + 1 => dodecads cfg ((r + 1) * cfg.dodecadCount) cfg.dodecadCount (scheduleBlock cfg w r)

/-- Word `j` of `PackKey(key)` (R124): zero as a whole when any of its 4 bytes would run past the end of the key. -/
def packKeyWord (key : List Byte) (j : Nat) : Word :=
  if h : 4 * j + 3 < key.length then be32 key[4 * j] key[4 * j + 1] key[4 * j + 2] key[4 * j + 3]
  else 0#32

/-- `PackKey(key)` (R124). -/
def packKey (key : List Byte) : KeyBlock := Vector.ofFn fun j => packKeyWord key j.val

/-- The masking key `j` of a round whose block is `w`: positions 11, 9, 7, 5, 3, 1 (R126). -/
def extractKm (w : KeyBlock) (j : Fin 6) : Word := w[11 - 2 * j.val]

/-- The rotation key `j` of a round whose block is `w`: positions 0, 2, 4, 6, 8, 10, masked to 5 bits (R105, R126). -/
def extractKr (w : KeyBlock) (j : Fin 6) : Rot := (w[2 * j.val]).extractLsb' 0 5

/-- `GenerateRoundKeys(key)` (R125): twelve rounds of six pairs, extracted after each round's dodecads (R126). -/
@[irreducible] def generateRoundKeys (cfg : Config) (key : List Byte) : KeySet where
  km := Vector.ofFn fun i => extractKm (scheduleBlock cfg (packKey key) (i.val / 6)) ⟨i.val % 6, Nat.mod_lt _ (by decide)⟩
  kr := Vector.ofFn fun i => extractKr (scheduleBlock cfg (packKey key) (i.val / 6)) ⟨i.val % 6, Nat.mod_lt _ (by decide)⟩

end Sys2Proof.Machine
end

