-- ==== Sys2Proof/Machine/Ops.lean ====
section
/-!
DEFINITION. The named operations over the state: the buffers by host address (spec 20_memory.md R51, R59), the two ends
of a command, failing and succeeding (60_exceptions.md R190, R196, R201), and the reset event (70_reset_and_hazards.md
R215, R217).
-/

namespace Sys2Proof.Machine

/-- The outcome of a step of this machine. -/
abbrev Result := Host.Outcome State Fault Refusal

/-! ### The buffers -/

/-- The byte written at `a`, if one was. -/
def Memory.find : Memory → Nat → Option Byte
  | [], _ => none
  | (k, v) :: m, a => if a = k then some v else Memory.find m a

/-- Writes the byte `b` at `a`, keeping the addresses rising. -/
def Memory.put : Memory → Nat → Byte → Memory
  | [], a, b => [(a, b)]
  | (k, v) :: m, a, b =>
    if a < k then (a, b) :: (k, v) :: m
    else if a = k then (a, b) :: m
    else (k, v) :: Memory.put m a b

/-- The first host address of a buffer (R51). -/
def Buffer.base : Buffer → Nat
  | .keybuf => 0x040
  | .noncebuf => 0x070
  | .seekbuf => 0x080
  | .dbuf => 0x100

/-- The size of a buffer in bytes (R34 to R37, R51). -/
def Buffer.size (cfg : Config) : Buffer → Nat
  | .keybuf => 48
  | .noncebuf => 16
  | .seekbuf => 8
  | .dbuf => cfg.dbufBytes

/-- The host address of byte `i` of a buffer (R51). -/
def Buffer.addr (b : Buffer) (i : Nat) : Nat := b.base + i

/-- `a` is the address of a byte of the buffer `b` (R51). -/
def Buffer.holds (cfg : Config) (b : Buffer) (a : Nat) : Bool :=
  decide (b.base ≤ a) && decide (a - b.base < b.size cfg)

/-- `a` is the address of a buffer byte (R51). -/
def bufferByteAt (cfg : Config) (a : Nat) : Bool :=
  Buffer.keybuf.holds cfg a || Buffer.noncebuf.holds cfg a || Buffer.seekbuf.holds cfg a || Buffer.dbuf.holds cfg a

/-- The buffer byte at host address `a`: the byte last written there, or what the reset drew for it (R41, R61). -/
def readByte (cfg : Config) (s : State) (a : Nat) : Byte :=
  (Memory.find s.mem a).getD (cfg.unwritten s.draw a)

/-- Writes one buffer byte (R54). -/
def writeByte (a : Nat) (b : Byte) (s : State) : State := { s with mem := Memory.put s.mem a b }

/-- Writes the bytes at `a`, `a + 1`, and so on. -/
def writeBytes : Nat → List Byte → State → State
  | _, [], s => s
  | a, b :: bs, s => writeBytes (a + 1) bs (writeByte a b s)

/-- Byte `i` of a buffer. -/
def bufferByte (cfg : Config) (s : State) (b : Buffer) (i : Nat) : Byte := readByte cfg s (b.addr i)

/-! ### The two ends of a command -/

/-- `raise E` (R196): `LAST_ERR <- code(E)`, `ERR_SEEN <- 1`, and nothing else. This is the whole of the CORE's error
entry: it saves nothing and transfers control nowhere (R200). -/
def raise (e : ErrCode) (s : State) : State := { s with lastErr := e, errSeen := true }

/-- The end of a successful command: `LAST_ERR <- 0`; `ERR_SEEN` is left (R190, R201). There is no return from an
error (R201), so nothing stands beside `raise` but this. -/
def succeed (s : State) : State := { s with lastErr := .ok }

/-! ### Reset -/

/-- The buffers after reset number `n`: each written byte becomes an unspecified byte (R41, R217). -/
def Memory.redraw (cfg : Config) (n : Nat) (m : Memory) : Memory := m.map fun c => (c.1, cfg.resetByte n c.1 c.2)

/-- `Reset : State → State` (R215): the flags, `CUR` and `CTR` as R41 gives them; key storage, nonce, keystream and
buffers unspecified, neither zero nor their old contents (R217). What the host holds (its accesses and the answers it
has) is no part of the CORE. -/
def resetEvent (cfg : Config) (s : State) : State where
  keys :=
    { km := Vector.ofFn fun i => cfg.resetKm (s.draw + 1) i.val s.keys.km[i]
      kr := Vector.ofFn fun i => cfg.resetKr (s.draw + 1) i.val s.keys.kr[i] }
  keyed := false
  nonce := Vector.ofFn fun i => cfg.resetNonce (s.draw + 1) i.val s.nonce[i]
  ctr := 0#64
  ks := Vector.ofFn fun i => cfg.resetKs (s.draw + 1) i.val s.ks[i]
  cur := 24#5
  ctrReady := false
  lastErr := .ok
  errSeen := false
  mem := Memory.redraw cfg (s.draw + 1) s.mem
  draw := s.draw + 1
  port := s.port
  answers := s.answers

end Sys2Proof.Machine
end

