-- ==== Sys2Proof/Machine/Operands.lean ====
section
/-!
DEFINITION. The operand forms of the commands (spec 30_encoding.md R83, R84): which bytes of which buffer a command
reads, sampled when it runs (70_reset_and_hazards.md R220), and how they become numbers.
-/

namespace Sys2Proof.Machine

/-- The raw key of a key-loading command: `KEYBUF[0 .. min(KLEN, 48) - 1]` (R83, R128). -/
def keyOperand (cfg : Config) (klen : Nat) (s : State) : List Byte :=
  (List.range (min klen 48)).map (bufferByte cfg s .keybuf)

/-- The nonce of CTR_INIT: `NONCEBUF[0..15]` (R83, R165). -/
def nonceOperand (cfg : Config) (s : State) : Vector Byte 16 :=
  Vector.ofFn fun i => bufferByte cfg s .noncebuf i.val

/-- The block of a block command: `DBUF[0..23]` (R83, R148). -/
def blockOperand (cfg : Config) (s : State) : Vector Byte 24 :=
  Vector.ofFn fun i => bufferByte cfg s .dbuf i.val

/-- Stores a block in place: `DBUF[0..23] <- b` (R37, R148). -/
def storeBlock (b : Vector Byte 24) (s : State) : State := writeBytes (Buffer.dbuf.addr 0) b.toList s

/-- The operand of CTR_SEEK: `SEEKBUF[0 .. CLEN - 1]` (R83, R169). -/
def seekOperand (cfg : Config) (clen : Nat) (s : State) : List Byte :=
  (List.range clen).map (bufferByte cfg s .seekbuf)

/-- `CounterOfBytes(s)` (R170): a big-endian unsigned integer, left-zero-padded to 8 bytes. -/
def counterOfBytes (bs : List Byte) : Count := BitVec.ofNat 64 (natOfBytes bs)

end Sys2Proof.Machine
end

