-- ==== Sys2Proof/Machine/CipherCommands.lean ====
section
/-!
DEFINITION. The commands of the cipher unit: CIPH_INIT (spec 41_key_schedule.md R127, R128), CIPH_ENC and CIPH_DEC
(42_block_cipher.md R148, R149). Each is a function of the configuration; `execCiphInit`, `execCiphEnc` and
`execCiphDec` are the meanings under the CORE's own configuration.
-/

namespace Sys2Proof.Machine

/-- `KeySetup(klen)` (R127), run by both key-loading commands. -/
def keySetup (cfg : Config) (klen : Nat) (s : State) : State :=
  { s with keys := generateRoundKeys cfg (keyOperand cfg klen s), keyed := true }

/-- `CIPH_INIT` (R128): no key length is an error. -/
def ciphInit (cfg : Config) (klen : Nat) (s : State) : State := succeed (keySetup cfg klen s)

/-- A block command whose transform is `f` (R148, R149): the checks in the order of R195, then `DBUF[0..23]` in place. -/
def blockCommand (cfg : Config) (f : Config → KeySet → Vector Byte 24 → Vector Byte 24) (dlen : Nat) (s : State) :
    State :=
  if s.keyed = false then raise .notInitialised s
  else if dlen ≠ 24 then raise .invalidLength s
  else succeed (storeBlock (f cfg s.keys (blockOperand cfg s)) s)

/-- `CIPH_ENC` (R148). -/
def ciphEnc (cfg : Config) (dlen : Nat) (s : State) : State := blockCommand cfg encryptBlock dlen s

/-- `CIPH_DEC` (R149). -/
def ciphDec (cfg : Config) (dlen : Nat) (s : State) : State := blockCommand cfg decryptBlock dlen s

/-- The meaning of CIPH_INIT (R128). -/
def execCiphInit (klen : Nat) (s : State) : Result := .next (ciphInit Config.built klen s)

/-- The meaning of CIPH_ENC (R148). -/
def execCiphEnc (dlen : Nat) (s : State) : Result := .next (ciphEnc Config.built dlen s)

/-- The meaning of CIPH_DEC (R149). -/
def execCiphDec (dlen : Nat) (s : State) : Result := .next (ciphDec Config.built dlen s)

end Sys2Proof.Machine
end

