-- ==== Sys2Proof/Machine/Keystream.lean ====
section
/-!
DEFINITION. The CTR mode's keystream: block, refill, byte-at-a-time consumption (spec 43_ctr_mode.md R161 to R164) and
the logical keystream its laws speak of (R171).
-/

namespace Sys2Proof.Machine

/-- The input block of a keystream block: `NONCE ‖ Bytes64(c)` (R161). -/
def keystreamInput (nonce : Vector Byte 16) (c : Count) : Vector Byte 24 := nonce ++ bytes64 c

/-- `KeystreamBlock(c) = EncryptBlock(NONCE ‖ Bytes64(c))` (R161). -/
def keystreamBlock (cfg : Config) (keys : KeySet) (nonce : Vector Byte 16) (c : Count) : Vector Byte 24 :=
  encryptBlock cfg keys (keystreamInput nonce c)

/-- `Refill` (R162): the block of the counter before its increment; the counter wraps. -/
def refill (cfg : Config) (s : State) : State :=
  { s with ks := keystreamBlock cfg s.keys s.nonce s.ctr, ctr := s.ctr + 1#64, cur := 0#5 }

/-- The next keystream byte and the state after taking it (R163): the buffer-empty test comes first, so the refill is
lazy. Here `CUR ≥ 24` is empty; `CUR` in 25..31 never occurs (R27, R40; DESIGN CHOICE, log entry 12). -/
def takeKeystream (cfg : Config) (s : State) : Byte × State :=
  if h : s.cur.toNat < 24 then (s.ks[s.cur.toNat], { s with cur := s.cur + 1#5 })
  else ((refill cfg s).ks[0], { refill cfg s with cur := 1#5 })

/-- `XorByte(i)` (R163). -/
def xorByte (cfg : Config) (i : Nat) (s : State) : State :=
  writeByte (Buffer.dbuf.addr i) (bufferByte cfg s .dbuf i ^^^ (takeKeystream cfg s).1) (takeKeystream cfg s).2

/-- `CtrXor(n)` (R164): `XorByte(i)` for `i = 0 .. n - 1`, ascending. -/
def ctrXor (cfg : Config) : Nat → State → State
  | 0, s => s
  | n + 1, s => xorByte cfg n (ctrXor cfg n s)

/-- `Z(c0, N)`, byte `N` of the logical keystream that starts at counter `c0` (R171). -/
def logicalByte (cfg : Config) (keys : KeySet) (nonce : Vector Byte 16) (c0 : Count) (N : Nat) : Byte :=
  (keystreamBlock cfg keys nonce (c0 + BitVec.ofNat 64 (N / 24)))[N % 24]'(Nat.mod_lt _ (by decide))

end Sys2Proof.Machine
end

