-- ==== Sys2Proof/Machine/ModeCommands.lean ====
section
/-!
DEFINITION. The commands of the mode unit: CTR_INIT, CTR_ENC, CTR_DEC, CTR_SEEK (spec 43_ctr_mode.md R165 to R169).
Each is a function of the configuration; the `exec` definitions are the meanings under the CORE's own configuration.
-/

namespace Sys2Proof.Machine

/-- `CTR_INIT` (R165): the length check first, so that nothing, not even the key, is written when it fails. -/
def ctrInit (cfg : Config) (klen nlen : Nat) (s : State) : State :=
  if nlen ≠ 16 then raise .invalidLength s
  else
    let bound := { s with nonce := nonceOperand cfg s, ctr := 0#64, cur := 24#5 }
    succeed { keySetup cfg klen bound with ctrReady := true }

/-- A stream command (R166, R167): the checks in the order of R195, then `CtrXor(DLEN)`. -/
def streamCommand (cfg : Config) (dlen : Nat) (s : State) : State :=
  if s.ctrReady = false then raise .notInitialised s
  else if dlen ≤ cfg.dbufBytes then succeed (ctrXor cfg dlen s)
  else raise .invalidLength s

/-- `CTR_ENC` (R166). -/
def ctrEnc (cfg : Config) (dlen : Nat) (s : State) : State := streamCommand cfg dlen s

/-- `CTR_DEC` (R167): "CTR mode's XOR keystream application is its own inverse". -/
def ctrDec (cfg : Config) (dlen : Nat) (s : State) : State := streamCommand cfg dlen s

/-- `CTR_SEEK` (R169). -/
def ctrSeek (cfg : Config) (clen : Nat) (s : State) : State :=
  if s.ctrReady = false then raise .notInitialised s
  else if clen ≤ 8 then succeed { s with ctr := counterOfBytes (seekOperand cfg clen s), cur := 24#5 }
  else raise .invalidLength s

/-- The meaning of CTR_INIT (R165). -/
def execCtrInit (klen nlen : Nat) (s : State) : Result := .next (ctrInit Config.built klen nlen s)

/-- The meaning of CTR_ENC (R166). -/
def execCtrEnc (dlen : Nat) (s : State) : Result := .next (ctrEnc Config.built dlen s)

/-- The meaning of CTR_DEC (R167). -/
def execCtrDec (dlen : Nat) (s : State) : Result := .next (ctrDec Config.built dlen s)

/-- The meaning of CTR_SEEK (R169). -/
def execCtrSeek (clen : Nat) (s : State) : Result := .next (ctrSeek Config.built clen s)

end Sys2Proof.Machine
end

