-- ==== Sys2Proof/Syntax.lean ====
section
/-!
DEFINITION. The seven commands (spec 00_scope.md R3, 30_encoding.md R80 to R83), one constructor per row of the opcode
table. The length fields are "plain unsigned binary numbers, zero-extended to natural numbers" (R83).
-/

namespace Sys2Proof

/-- A command with its length fields. `len` is the `LEN` field, `nlen` the `NLEN` field of CTR_INIT (R80, R81). -/
inductive Instr
  /-- `CIPH_INIT` (R128), format K: `klen` is the key length in bytes. -/
  | ciphInit (klen : Nat)
  /-- `CIPH_ENC` (R148), format D: `dlen` is the block length in bytes. -/
  | ciphEnc (dlen : Nat)
  /-- `CIPH_DEC` (R149), format D. -/
  | ciphDec (dlen : Nat)
  /-- `CTR_INIT` (R165), format KN: key length and nonce length in bytes. -/
  | ctrInit (klen nlen : Nat)
  /-- `CTR_ENC` (R166), format D: `dlen` is the data length in bytes. -/
  | ctrEnc (dlen : Nat)
  /-- `CTR_DEC` (R167), format D. -/
  | ctrDec (dlen : Nat)
  /-- `CTR_SEEK` (R169), format S: `clen` is the length of the counter operand in bytes. -/
  | ctrSeek (clen : Nat)
deriving DecidableEq, Repr

/-- The mnemonics of the opcode table (R82). -/
inductive Mnemonic
  | ciphInit | ciphEnc | ciphDec | ctrInit | ctrEnc | ctrDec | ctrSeek
deriving DecidableEq, Repr

/-- The mnemonic of a command. -/
def Instr.mnemonic : Instr → Mnemonic
  | .ciphInit _ => .ciphInit
  | .ciphEnc _ => .ciphEnc
  | .ciphDec _ => .ciphDec
  | .ctrInit _ _ => .ctrInit
  | .ctrEnc _ => .ctrEnc
  | .ctrDec _ => .ctrDec
  | .ctrSeek _ => .ctrSeek

end Sys2Proof
end

