-- ==== Sys2Proof/Machine/Dispatch.lean ====
section
/-!
DEFINITION. One arm per command, each a direct call of its meaning.
-/

namespace Sys2Proof.Machine

def exec (i : Instr) (s : State) : Host.Outcome State Fault Refusal :=
  match i with
  | .ciphInit klen => Sys2Proof.Machine.execCiphInit klen s
  | .ciphEnc dlen => Sys2Proof.Machine.execCiphEnc dlen s
  | .ciphDec dlen => Sys2Proof.Machine.execCiphDec dlen s
  | .ctrInit klen nlen => Sys2Proof.Machine.execCtrInit klen nlen s
  | .ctrEnc dlen => Sys2Proof.Machine.execCtrEnc dlen s
  | .ctrDec dlen => Sys2Proof.Machine.execCtrDec dlen s
  | .ctrSeek clen => Sys2Proof.Machine.execCtrSeek clen s

end Sys2Proof.Machine
end

