-- ==== Sys2Proof/WellFormed.lean ====
section
/-!
DEFINITION. When a command has an encoding: `LEN` is a 16-bit field and `NLEN` an 8-bit field (spec 30_encoding.md R80).
A length that is encodable but not legal for its command is well formed: it is an error at run time (R192), not here.
-/

namespace Sys2Proof

/-- `n` fits the 16-bit `LEN` field (R80). -/
def lenFits (n : Nat) : Bool := n < 65536

/-- `n` fits the 8-bit `NLEN` field (R80). -/
def nlenFits (n : Nat) : Bool := n < 256

/-- Every length field of the command fits its field of the command word. -/
def Instr.wellFormed : Instr → Bool
  | .ciphInit klen => lenFits klen
  | .ciphEnc dlen => lenFits dlen
  | .ciphDec dlen => lenFits dlen
  | .ctrInit klen nlen => lenFits klen && nlenFits nlen
  | .ctrEnc dlen => lenFits dlen
  | .ctrDec dlen => lenFits dlen
  | .ctrSeek clen => lenFits clen

end Sys2Proof
end

