-- ==== Sys2Proof/Decode.lean ====
section
/-!
DEFINITION. Decoding and encoding of the 32-bit command word (spec 30_encoding.md R80 to R88). Decoding is total and
looks at the word only (R87); a word that is no command is illegal, with the reason R85 gives.
-/

namespace Sys2Proof

/-- Why a command word is illegal (R85). Which reason a word with several gets is a DESIGN CHOICE, log entry 13: safe, no
state shows it. -/
inductive IllegalWord
  /-- `OP = 0` or `OP` in `0x8 .. 0xF`. -/
  | reservedOpcode
  /-- `RSV ≠ 0`. -/
  | reservedField
  /-- `NLEN ≠ 0` in a command other than CTR_INIT. -/
  | strayNonceLength
deriving DecidableEq, Repr

/-- `Decode : Word → Command ∪ {Illegal}` (R87). -/
inductive Decoded
  | command (i : Instr)
  | illegal (why : IllegalWord)
deriving DecidableEq, Repr

/-- `OP`, bits 3:0 (R80). -/
def fieldOp (w : Word) : BitVec 4 := w.extractLsb' 0 4
/-- `RSV`, bits 7:4 (R80). -/
def fieldRsv (w : Word) : BitVec 4 := w.extractLsb' 4 4
/-- `LEN`, bits 23:8 (R80). -/
def fieldLen (w : Word) : BitVec 16 := w.extractLsb' 8 16
/-- `NLEN`, bits 31:24 (R80). -/
def fieldNlen (w : Word) : BitVec 8 := w.extractLsb' 24 8

/-- The command `i` unless its `RSV` field is not 0 (R85). -/
def withReservedZero (w : Word) (i : Instr) : Decoded :=
  if fieldRsv w = 0#4 then .command i else .illegal .reservedField

/-- A command other than CTR_INIT: its `NLEN` field must be 0 too (R81, R85). -/
def withoutNonce (w : Word) (i : Instr) : Decoded :=
  if fieldRsv w = 0#4 ∧ fieldNlen w ≠ 0#8 then .illegal .strayNonceLength else withReservedZero w i

/-- The decoder (R82, R85, R87). -/
def decode (w : Word) : Decoded :=
  let len := (fieldLen w).toNat
  match (fieldOp w).toNat with
  | 1 => withoutNonce w (.ciphInit len)
  | 2 => withoutNonce w (.ciphEnc len)
  | 3 => withoutNonce w (.ciphDec len)
  | 4 => withReservedZero w (.ctrInit len (fieldNlen w).toNat)
  | 5 => withoutNonce w (.ctrEnc len)
  | 6 => withoutNonce w (.ctrDec len)
  | 7 => withoutNonce w (.ctrSeek len)
  | _ => .illegal .reservedOpcode

/-- What the host's table asks for: the command the decoder reads from a word whose low `nbits` bits are those of `w`
and whose other bits are 0. A command word is one 32-bit value and has no byte order (R57, R80). -/
def decodeTableWord (nbits w : Nat) : Option Instr :=
  match decode (BitVec.ofNat 32 (w % 2 ^ nbits)) with
  | .command i => some i
  | .illegal _ => none

/-- `OP` of a command (R82). -/
def opcodeOf : Mnemonic → BitVec 4
  | .ciphInit => 1#4
  | .ciphEnc => 2#4
  | .ciphDec => 3#4
  | .ctrInit => 4#4
  | .ctrEnc => 5#4
  | .ctrDec => 6#4
  | .ctrSeek => 7#4

/-- The `LEN` field of a command (R83). -/
def Instr.lenField : Instr → Nat
  | .ciphInit n | .ciphEnc n | .ciphDec n | .ctrInit n _ | .ctrEnc n | .ctrDec n | .ctrSeek n => n

/-- The `NLEN` field of a command: 0 but for CTR_INIT (R81). -/
def Instr.nlenField : Instr → Nat
  | .ctrInit _ n => n
  | .ciphInit _ | .ciphEnc _ | .ciphDec _ | .ctrEnc _ | .ctrDec _ | .ctrSeek _ => 0

/-- The command word with `RSV = 0`: `word = OP + 16·RSV + 256·LEN + 2^24·NLEN` (R80). -/
def encode (i : Instr) : Word :=
  BitVec.ofNat 8 i.nlenField ++ BitVec.ofNat 16 i.lenField ++ 0#4 ++ opcodeOf i.mnemonic

/-- One row of the match and mask table (R86). -/
structure EncodingRow where
  mnemonic : Mnemonic
  mask : Word
  pattern : Word
deriving DecidableEq, Repr

/-- The match and mask table (R86): `word & mask = pattern` selects the command. -/
def encodingTable : List EncodingRow :=
  [ ⟨.ciphInit, 0xFF0000FF#32, 0x00000001#32⟩,
    ⟨.ciphEnc,  0xFF0000FF#32, 0x00000002#32⟩,
    ⟨.ciphDec,  0xFF0000FF#32, 0x00000003#32⟩,
    ⟨.ctrInit,  0x000000FF#32, 0x00000004#32⟩,
    ⟨.ctrEnc,   0xFF0000FF#32, 0x00000005#32⟩,
    ⟨.ctrDec,   0xFF0000FF#32, 0x00000006#32⟩,
    ⟨.ctrSeek,  0xFF0000FF#32, 0x00000007#32⟩ ]

/-- `w` matches the row (R86). -/
def EncodingRow.matchesWord (r : EncodingRow) (w : Word) : Bool := w &&& r.mask == r.pattern

end Sys2Proof
end

