-- ==== Sys2Proof/Machine/Flags.lean ====
section
/-!
DEFINITION. The result codes and the STATUS view (spec 10_state.md R29 to R33, 60_exceptions.md R190). The CORE has no
carry, zero, overflow or sign flag (R31).
-/

namespace Sys2Proof.Machine

/-- The 2-bit code of a result (R29, R190). -/
def ErrCode.code : ErrCode → BitVec 2
  | .ok => 0#2
  | .notInitialised => 1#2
  | .invalidLength => 2#2
  | .illegalCommand => 3#2

/-- `STATUS` (R33): bit 0 `KEYED`, bit 1 `CTR_READY`, bit 2 `ERR_SEEN`, bit 3 reads 0, bits 5:4 `LAST_ERR`,
bits 31:6 read 0. -/
def status (s : State) : Word :=
  0#26 ++ s.lastErr.code ++ 0#1 ++ BitVec.ofBool s.errSeen ++ BitVec.ofBool s.ctrReady ++ BitVec.ofBool s.keyed

end Sys2Proof.Machine
end

