-- ==== Sys2Proof/Machine/Port.lean ====
section
/-!
DEFINITION. The host port (spec 20_memory.md R50 to R65): what each host access does, the command a write to `CMD`
runs (10_state.md R32, 30_encoding.md R87, R89), and serving the next pending access. The commands themselves are the
argument `ex`, so that this file stands before the dispatch.
-/

namespace Sys2Proof.Machine

/-- The address of `CMD` (R51). -/
def cmdAddr : Nat := 0x000

/-- The address of `STATUS` (R51). -/
def statusAddr : Nat := 0x004

/-- `a` lies inside `CMD` or `STATUS` but is not its base (R53). -/
def insideRegister (a : Nat) : Bool := (1 ≤ a && a ≤ 3) || (5 ≤ a && a ≤ 7)

/-- Why an access at `a` that R59 does not list is refused (R53; the names are a DESIGN CHOICE, log entry 9: safe). -/
def refusalAt (cfg : Config) (a : Nat) : Refusal :=
  if insideRegister a then .insideRegister
  else if a = cmdAddr ∨ a = statusAddr ∨ bufferByteAt cfg a = true then .wrongWidth
  else .unmappedAddress

/-- `MemRead(addr, n)` (R59): the value the port returns, or the refusal of R53. -/
def memRead (cfg : Config) (a n : Nat) (s : State) : Except Refusal Word :=
  if n = 4 ∧ a = cmdAddr then .ok 0#32
  else if n = 4 ∧ a = statusAddr then .ok (status s)
  else if n = 1 ∧ bufferByteAt cfg a = true then .ok ((readByte cfg s a).setWidth 32)
  else .error (refusalAt cfg a)

/-- `Exec` of a command word (R13, R89): decode; an illegal word raises IllegalCommand (R85, R193), a command runs. -/
def execWord (ex : Instr → State → Result) (c : Word) (s : State) : Result :=
  match decode c with
  | .command i => ex i s
  | .illegal _ => .next (raise .illegalCommand s)

/-- `MemWrite(addr, n, v)` (R59). -/
def memWrite (cfg : Config) (ex : Instr → State → Result) (a n : Nat) (v : Word) (s : State) : Result :=
  if n = 4 ∧ a = cmdAddr then execWord ex v s
  else if n = 4 ∧ a = statusAddr then .next s
  else if n = 1 ∧ bufferByteAt cfg a = true then .next (writeByte a (v.setWidth 8) s)
  else .refused (refusalAt cfg a)

/-- One event at the port: a read hands its value to the host and changes nothing in the CORE (R54). -/
def portEvent (cfg : Config) (ex : Instr → State → Result) (e : HostEvent) (s : State) : Result :=
  match e with
  | .read a n =>
    match memRead cfg a n s with
    | .ok v => .next { s with answers := v :: s.answers }
    | .error r => .refused r
  | .write a n v => memWrite cfg ex a n v s
  | .reset => .next (resetEvent cfg s)

/-- Serves the oldest pending event, taken off the port first (R55, R61); with none pending the CORE does nothing
(R12, R216). -/
def servePort (cfg : Config) (ex : Instr → State → Result) (s : State) : Result :=
  match s.port with
  | [] => .next s
  | e :: rest => portEvent cfg ex e { s with port := rest }

/-- The host access that runs the command word whose low `nbits` bits are those of `w`: a write to `CMD` (R32). -/
def commandWrite (nbits w : Nat) : HostEvent := .write cmdAddr 4 (BitVec.ofNat 32 (w % 2 ^ nbits))

end Sys2Proof.Machine
end

