-- ==== Sys2Proof/Machine/Step.lean ====
section
/-!
DEFINITION. One step of the machine: it serves the oldest pending event of the host port (spec 00_scope.md R12, R13,
20_memory.md R61). The CORE has no program counter and fetches nothing (10_state.md R39): its next instruction is the
next word the host writes to `CMD`.
-/

namespace Sys2Proof.Machine

/-- One step. -/
def step (s : State) : Host.Outcome State Fault Refusal := servePort Config.built exec s

/-- The state with the instruction `w` as the host's next access, a write of the word to `CMD`, ahead of whatever else
is pending. It stands for the host's placing of a program from outside (DESIGN CHOICE, log entry 7: safe). -/
def State.withFetchWord (s : State) (nbits w : Nat) : State := { s with port := commandWrite nbits w :: s.port }

end Sys2Proof.Machine
end

