-- ==== Sys2Proof/Machine/Script.lean ====
section
/-!
DEFINITION. The script notation and its pseudo-commands as lists of host accesses (spec 30_encoding.md R90, R91).
-/

namespace Sys2Proof.Machine.Script

/-- `WR8 addr byte` (R90). -/
def wr8 (a : Nat) (b : Byte) : HostEvent := .write a 1 (b.setWidth 32)

/-- `WR32 addr word` (R90). -/
def wr32 (a : Nat) (w : Word) : HostEvent := .write a 4 w

/-- `RD8 addr` (R90); the expected value is the host's own check. -/
def rd8 (a : Nat) : HostEvent := .read a 1

/-- `RD32 addr` (R90). -/
def rd32 (a : Nat) : HostEvent := .read a 4

/-- A mnemonic line: the write of the command word to `CMD` (R90). -/
def issue (i : Instr) : HostEvent := wr32 cmdAddr (encode i)

/-- Byte writes at `a`, `a + 1`, and so on, ascending (R91). -/
def wrRun : Nat → List Byte → List HostEvent
  | _, [] => []
  | a, b :: bs => wr8 a b :: wrRun (a + 1) bs

/-- `KEY` (R91). -/
def key (bs : List Byte) : List HostEvent := wrRun (Buffer.keybuf.addr 0) bs

/-- `NONCE` (R91). -/
def nonce (bs : List Byte) : List HostEvent := wrRun (Buffer.noncebuf.addr 0) bs

/-- `SEEKB` (R91). -/
def seekb (bs : List Byte) : List HostEvent := wrRun (Buffer.seekbuf.addr 0) bs

/-- `DATA` (R91). -/
def data (bs : List Byte) : List HostEvent := wrRun (Buffer.dbuf.addr 0) bs

/-- `EXPECT` of `n` bytes (R91): the reads; comparing the answers is the host's. -/
def expect (n : Nat) : List HostEvent := (List.range n).map fun i => rd8 (Buffer.dbuf.addr i)

/-- `STATUS` (R91). -/
def readStatus : HostEvent := rd32 statusAddr

/-- `CTR_SEEK64 c` (R91). -/
def ctrSeek64 (c : Count) : List HostEvent := seekb (bytes64 c).toList ++ [issue (.ctrSeek 8)]

/-- `CTR_SEEK_BYTE N` (R91, R178): seek to block `N div 24`, then consume and discard `N mod 24` keystream bytes. -/
def ctrSeekByte (N : Nat) : List HostEvent :=
  ctrSeek64 (BitVec.ofNat 64 (N / 24)) ++ (if N % 24 = 0 then [] else [issue (.ctrEnc (N % 24))])

end Sys2Proof.Machine.Script
end

