-- ==== Sys2Proof/Safety.lean ====
section
/-!
DEFINITION. What a safe run is, in the terms the statements use: the invariants of the state (spec 10_state.md R40), the
accesses the host may issue (20_memory.md R53), the host's view (60_exceptions.md R203) and the stream position
(43_ctr_mode.md R171, R172).
-/

namespace Sys2Proof.Machine

/-- The invariants of R40, and the form of the memory. R40 (a) and (e) hold by the types of `KR` and of every index. -/
structure Inv (cfg : Config) (s : State) : Prop where
  /-- The written buffer bytes are in the canonical form. -/
  memWf : Memory.wf s.mem
  /-- Only buffer bytes are ever written (R51). -/
  memMapped : ∀ c ∈ s.mem, bufferByteAt cfg c.1 = true
  /-- R40 (b): `0 ≤ CUR ≤ 24`. -/
  curLe : s.cur.toNat ≤ 24
  /-- R40 (c): `CTR_READY = 1` implies `KEYED = 1`. -/
  readyKeyed : s.ctrReady = true → s.keyed = true
  /-- R40 (d): `LAST_ERR ≠ 0` implies `ERR_SEEN = 1`. -/
  errSticky : s.lastErr ≠ .ok → s.errSeen = true

/-- R59 gives the access a meaning; every other access "is refused" (R53). A reset always has one (R215). -/
def meaningful (cfg : Config) : HostEvent → Bool
  | .read a n | .write a n _ =>
    (n == 4 && (a == cmdAddr || a == statusAddr)) || (n == 1 && bufferByteAt cfg a)
  | .reset => true

/-- Every buffer byte but those of `a .. a + n - 1` reads in `t` as in `s`. -/
def SameBytesOutside (cfg : Config) (a n : Nat) (s t : State) : Prop :=
  ∀ x, x < a ∨ a + n ≤ x → readByte cfg t x = readByte cfg s x

/-- Every buffer byte reads in `t` as in `s`. -/
def SameBytes (cfg : Config) (s t : State) : Prop := ∀ x, readByte cfg t x = readByte cfg s x

/-- The cipher unit of `t` is as in `s`. -/
def SameCipher (s t : State) : Prop := t.keys = s.keys ∧ t.keyed = s.keyed

/-- The mode unit of `t` is as in `s`. -/
def SameMode (s t : State) : Prop :=
  t.nonce = s.nonce ∧ t.ctr = s.ctr ∧ t.ks = s.ks ∧ t.cur = s.cur ∧ t.ctrReady = s.ctrReady

/-- What is not the CORE's is as in `s`: the pending accesses, the answers given, the count of resets. -/
def SameHostSide (s t : State) : Prop := t.port = s.port ∧ t.answers = s.answers ∧ t.draw = s.draw

/-- Commands run one after another, as if the host's writes to `CMD` came with nothing between them. -/
def execAll : List Instr → State → Result
  | [], s => .next s
  | i :: is, s =>
    match exec i s with
    | .next t => execAll is t
    | .fault r => .fault r
    | .refused r => .refused r

/-- The stream command of the given direction: CTR_ENC or CTR_DEC (R166, R167). -/
def streamInstr (decrypting : Bool) (n : Nat) : Instr := if decrypting then .ctrDec n else .ctrEnc n

/-- The command a host event runs, if it runs one: a write to `CMD` of a word that decodes to a command (R32, R89). -/
def eventCommand : HostEvent → Option Instr
  | .write a n v =>
    if n = 4 ∧ a = cmdAddr then
      match decode v with
      | .command i => some i
      | .illegal _ => none
    else none
  | .read _ _ | .reset => none

/-- On a ready CORE the event sets the stream position anew: a reset, a CTR_INIT or a CTR_SEEK that succeeds (R25, R27,
R172). -/
def setsPosition (e : HostEvent) : Bool :=
  e == .reset ||
    match eventCommand e with
    | some (.ctrInit _ nlen) => nlen == 16
    | some (.ctrSeek clen) => decide (clen ≤ 8)
    | some (.ciphInit _) | some (.ciphEnc _) | some (.ciphDec _) | some (.ctrEnc _) | some (.ctrDec _) | none => false

/-- The bytes the event processes on a ready CORE: `DLEN` of a stream command that succeeds, else none (R164, R166). -/
def streamBytes (cfg : Config) (e : HostEvent) : Nat :=
  match eventCommand e with
  | some (.ctrEnc dlen) | some (.ctrDec dlen) => if dlen ≤ cfg.dbufBytes then dlen else 0
  | some (.ciphInit _) | some (.ciphEnc _) | some (.ciphDec _) | some (.ctrInit _ _) | some (.ctrSeek _) | none => 0

/-- The two states look the same to the host: the same pending accesses and answers, the same flags, the same buffers.
They may differ in `KM`, `KR`, `NONCE`, `CTR`, `KS`, `CUR`, which have no host path (R20, R21, R24 to R27, R203). -/
structure SameToHost (s t : State) : Prop where
  port : s.port = t.port
  answers : s.answers = t.answers
  keyed : s.keyed = t.keyed
  ctrReady : s.ctrReady = t.ctrReady
  lastErr : s.lastErr = t.lastErr
  errSeen : s.errSeen = t.errSeen
  mem : s.mem = t.mem
  draw : s.draw = t.draw

/-- The event runs none of the four data commands, the only ones whose result depends on the KeySet or the mode state
(R203, R175). -/
def noDataCommand : HostEvent → Bool
  | .write a n v =>
    !(n == 4 && a == cmdAddr) ||
      match decode v with
      | .command (.ciphEnc _) | .command (.ciphDec _) | .command (.ctrEnc _) | .command (.ctrDec _) => false
      | .command (.ciphInit _) | .command (.ctrInit _ _) | .command (.ctrSeek _) | .illegal _ => true
  | .read _ _ | .reset => true

/-- The mode unit stands at byte `j` of the logical keystream that starts at counter `c0` (R171, R172): between blocks
the buffer is empty and `CTR` is the next block's number; inside a block `CUR` bytes of it are used, `KS` holds it, and
`CTR` is one ahead. -/
def StreamAt (cfg : Config) (c0 : Count) (j : Nat) (s : State) : Prop :=
  if j % 24 = 0 then s.cur = 24#5 ∧ s.ctr = c0 + BitVec.ofNat 64 (j / 24)
  else s.cur = BitVec.ofNat 5 (j % 24) ∧ s.ctr = c0 + BitVec.ofNat 64 (j / 24) + 1#64 ∧
    s.ks = keystreamBlock cfg s.keys s.nonce (c0 + BitVec.ofNat 64 (j / 24))

end Sys2Proof.Machine
end

