-- ==== Sys2Proof/Certificates/Slice0/Obligations.lean ====
section
/-!
DEFINITION. The statements about the CORE, for the provers. Each docstring names the rule of spec/ it formalises.
Statements about the pure functions hold for every configuration; statements about the machine are under the CORE's own
configuration `Config.built`, of which nothing is known. Buffer bytes are read with `readByte`; `0x040`, `0x070`,
`0x080`, `0x100` are the first addresses of KEYBUF, NONCEBUF, SEEKBUF and DBUF (R51).
-/

open Sys2Proof Sys2Proof.Machine

/-! ## Word arithmetic, byte order, round functions -/

/-- R104: `rotl32(a, n) = ((a · 2^n) mod 2^32) + (a div 2^(32−n))`, `rotl32(a, 0) = a`, and the rule's corner cases and
examples. -/
def Obligations.RotateLeftIsMultiplyAndWrap : Prop :=
  (∀ (a : Word) (n : Rot), 1 ≤ n.toNat →
    (rotl32 a n).toNat = (a.toNat * 2 ^ n.toNat) % 2 ^ 32 + a.toNat / 2 ^ (32 - n.toNat)) ∧
  (∀ a : Word, rotl32 a 0#5 = a) ∧
  (∀ n : Rot, rotl32 0xFFFFFFFF#32 n = 0xFFFFFFFF#32 ∧ rotl32 0#32 n = 0#32) ∧
  rotl32 0x80000001#32 0#5 = 0x80000001#32 ∧ rotl32 0x80000001#32 1#5 = 0x00000003#32 ∧
  rotl32 0x80000001#32 31#5 = 0xC0000000#32 ∧ rotl32 0x12345678#32 4#5 = 0x23456781#32 ∧
  rotl32 0x12345678#32 16#5 = 0x56781234#32

/-- R56, R106: the byte-order helpers are the big-endian sums, and byte `k` of a Word or of a counter is the quotient
the bit slice names. -/
def Obligations.ByteOrderIsBigEndian : Prop :=
  (∀ b0 b1 b2 b3 : Byte,
    (be32 b0 b1 b2 b3).toNat = b0.toNat * 2 ^ 24 + b1.toNat * 2 ^ 16 + b2.toNat * 2 ^ 8 + b3.toNat) ∧
  (∀ (w : Word) (k : Fin 4), (byte32 w k).toNat = w.toNat / 2 ^ (8 * (3 - k.val)) % 256) ∧
  (∀ (c : Count) (k : Fin 8), (bytes64 c)[k].toNat = c.toNat / 2 ^ (8 * (7 - k.val)) % 256) ∧
  (∀ w : Word, be32 (byte32 w 0) (byte32 w 1) (byte32 w 2) (byte32 w 3) = w) ∧
  (∀ c : Count, natOfBytes (bytes64 c).toList = c.toNat)

/-- R108 to R116: each round function written out, under each value of F_SUB_ORDER and F_GROUPING it depends on. -/
def Obligations.RoundFunctionsAreAsTabled : Prop :=
  ∀ (cfg : Config) (d km : Word) (kr : Rot),
    let S1 := fun t : Word => cfg.sbox .s1 (byte32 (rotl32 t kr) 0)
    let S2 := fun t : Word => cfg.sbox .s2 (byte32 (rotl32 t kr) 1)
    let S3 := fun t : Word => cfg.sbox .s3 (byte32 (rotl32 t kr) 2)
    let S4 := fun t : Word => cfg.sbox .s4 (byte32 (rotl32 t kr) 3)
    let sub := if cfg.fSubOrder = .dMinusKm then d - km else km - d
    roundF cfg .f1 d km kr = ((S1 (d + km) ^^^ S2 (d + km)) - S3 (d + km)) + S4 (d + km) ∧
    roundF cfg .f2 d km kr = ((S1 (d ^^^ km) - S2 (d ^^^ km)) + S3 (d ^^^ km)) ^^^ S4 (d ^^^ km) ∧
    roundF cfg .f3 d km kr =
      (if cfg.fGrouping = .leftToRight then ((S1 sub + S2 sub) ^^^ S3 sub) - S4 sub
       else (S1 sub + S2 sub) ^^^ (S3 sub - S4 sub)) ∧
    roundF cfg .f4 d km kr = ((S1 sub ^^^ S2 sub) + S3 sub) - S4 sub ∧
    roundF cfg .f5 d km kr =
      (if cfg.fGrouping = .leftToRight then ((S1 (d + km) - S2 (d + km)) ^^^ S3 (d + km)) + S4 (d + km)
       else (S1 (d + km) - S2 (d + km)) ^^^ (S3 (d + km) + S4 (d + km))) ∧
    roundF cfg .f6 d km kr = ((S1 (d ^^^ km) + S2 (d ^^^ km)) - S3 (d ^^^ km)) ^^^ S4 (d ^^^ km)

/-! ## The key schedule -/

/-- R120, R121: the schedule constants in closed form, as recurrences, with the period of `TR` and the listed values. -/
def Obligations.ScheduleConstantsAreLinearRecurrences : Prop :=
  (∀ n, (scheduleTm n).toNat = (0x5A827999 + n * 0x6ED9EBA1) % 2 ^ 32) ∧
  scheduleTm 0 = 0x5A827999#32 ∧ (∀ n, scheduleTm (n + 1) = scheduleTm n + 0x6ED9EBA1#32) ∧
  scheduleTm 1 = 0xC95C653A#32 ∧ scheduleTm 2 = 0x383650DB#32 ∧ scheduleTm 11 = 0x1DDF9984#32 ∧
  scheduleTm 12 = 0x8CB98525#32 ∧ scheduleTm 287 = 0xA0D1A318#32 ∧
  (∀ n, (scheduleTr n).toNat = (19 + 17 * n) % 32) ∧ scheduleTr 0 = 19#5 ∧
  (∀ n, (scheduleTr (n + 1)).toNat = ((scheduleTr n).toNat + 17) % 32) ∧
  (∀ n, scheduleTr (n + 32) = scheduleTr n) ∧
  (List.range 13).map (fun n => (scheduleTr n).toNat) = [19, 4, 21, 6, 23, 8, 25, 10, 27, 12, 29, 14, 31] ∧
  (scheduleTr 32).toNat = 19

/-- R123: the twelve statements of DODECAD in order, each reading its source word after the earlier statements, for
every pair source and offset; and DODECAD leaves the block alone when every table entry is 0. -/
def Obligations.DodecadRunsTwelveStatementsInOrder : Prop :=
  (∀ (cfg : Config) (M : Nat → Word) (R : Nat → Rot) (off : Nat) (w : KeyBlock),
    let F := fun (f : RoundFn) (k : Nat) (d : Word) => roundF cfg f d (M (off + k)) (R (off + k))
    let w10 := w[10] ^^^ F .f1 0 w[11]
    let w9 := w[9] ^^^ F .f2 1 w10
    let w8 := w[8] ^^^ F .f3 2 w9
    let w7 := w[7] ^^^ F .f4 3 w8
    let w6 := w[6] ^^^ F .f5 4 w7
    let w5 := w[5] ^^^ F .f6 5 w6
    let w4 := w[4] ^^^ F .f1 6 w5
    let w3 := w[3] ^^^ F .f2 7 w4
    let w2 := w[2] ^^^ F .f3 8 w3
    let w1 := w[1] ^^^ F .f4 9 w2
    let w0 := w[0] ^^^ F .f5 10 w1
    let w11 := w[11] ^^^ F .f6 11 w0
    dodecad cfg M R off w = #v[w0, w1, w2, w3, w4, w5, w6, w7, w8, w9, w10, w11]) ∧
  (∀ (cfg : Config) (M : Nat → Word) (R : Nat → Rot) (off : Nat) (w : KeyBlock),
    (∀ t x, cfg.sbox t x = 0#32) → dodecad cfg M R off w = w)

/-- R125, R126: round `r` extracts its six pairs from the packed key after `(r + 1) · DODECAD_COUNT` dodecads that
consume the schedule constants from element 0 with no gap and no reuse; the block is never reset between rounds. -/
def Obligations.RoundKeysComeFromOneCumulativeBlock : Prop :=
  ∀ (cfg : Config) (key : List Byte) (r : Fin 12) (j : Fin 6),
    let w := dodecads cfg 0 ((r.val + 1) * cfg.dodecadCount) (packKey key)
    (generateRoundKeys cfg key).km[6 * r.val + j.val] = w[11 - 2 * j.val] ∧
    (generateRoundKeys cfg key).kr[6 * r.val + j.val].toNat = w[2 * j.val].toNat % 32

/-- R131: a key of 44 to 47 bytes packs, and so schedules, as its first 44 bytes and four zero bytes; byte-wise padding
is not the rule. -/
def Obligations.ShortKeyZeroFillsWholeWords : Prop :=
  (∀ key : List Byte, 44 ≤ key.length → key.length ≤ 47 → packKey key = packKey (key.take 44 ++ [0#8, 0#8, 0#8, 0#8])) ∧
  (∀ (cfg : Config) (key : List Byte), 44 ≤ key.length → key.length ≤ 47 →
    generateRoundKeys cfg key = generateRoundKeys cfg (key.take 44 ++ [0#8, 0#8, 0#8, 0#8])) ∧
  (∃ (cfg : Config) (key : List Byte),
    key.length = 46 ∧ generateRoundKeys cfg key ≠ generateRoundKeys cfg (key ++ [0#8, 0#8]))

/-- R133 (a) to (d): zero tables make every `Fi` 0, DODECAD the identity and every round the extraction of the packed
key; so does DODECAD_COUNT 0; the KeySet for DODECAD_COUNT 2 is the odd rounds of that for 1; the all-zero 48-byte key,
the empty key and every key shorter than 4 bytes give the same KeySet. -/
def Obligations.KeyScheduleConsequences : Prop :=
  (∀ (cfg : Config) (f : RoundFn) (d km : Word) (kr : Rot), (∀ t x, cfg.sbox t x = 0#32) → roundF cfg f d km kr = 0#32) ∧
  (∀ (cfg : Config) (M : Nat → Word) (R : Nat → Rot) (off : Nat) (w : KeyBlock),
    (∀ t x, cfg.sbox t x = 0#32) → dodecad cfg M R off w = w) ∧
  (∀ (cfg : Config) (key : List Byte), (∀ t x, cfg.sbox t x = 0#32) ∨ cfg.dodecadCount = 0 →
    ∀ (r : Fin 12) (j : Fin 6),
      (generateRoundKeys cfg key).km[6 * r.val + j.val] = (packKey key)[11 - 2 * j.val] ∧
      (generateRoundKeys cfg key).kr[6 * r.val + j.val] = (packKey key)[2 * j.val].extractLsb' 0 5) ∧
  (∀ (cfg : Config) (key : List Byte) (r j : Fin 6),
    (generateRoundKeys { cfg with dodecadCount := 2 } key).km[6 * r.val + j.val] =
      (generateRoundKeys { cfg with dodecadCount := 1 } key).km[6 * (2 * r.val + 1) + j.val] ∧
    (generateRoundKeys { cfg with dodecadCount := 2 } key).kr[6 * r.val + j.val] =
      (generateRoundKeys { cfg with dodecadCount := 1 } key).kr[6 * (2 * r.val + 1) + j.val]) ∧
  (∀ (cfg : Config) (key : List Byte), key.length < 4 ∨ key = List.replicate 48 0#8 →
    generateRoundKeys cfg key = generateRoundKeys cfg [])

/-! ## The block cipher -/

/-- R140, R141: the six statements of HEXAD and of HEXADINV, each word named as the statement leaves it, with the key pairs
`idx + 0 .. idx + 5` of the KeySet. -/
def Obligations.HexadStatementsInOrder : Prop :=
  ∀ (cfg : Config) (keys : KeySet) (idx : Nat) (h : idx < 67) (x : DataBlock),
    let F := fun (f : RoundFn) (j : Fin 6) (d : Word) => roundF cfg f d keys.km[idx + j.val] keys.kr[idx + j.val]
    (let e := x.x4 ^^^ F .f1 0 x.x5
     let d := x.x3 ^^^ F .f2 1 e
     let c := x.x2 ^^^ F .f3 2 d
     let b := x.x1 ^^^ F .f4 3 c
     let a := x.x0 ^^^ F .f5 4 b
     hexad cfg keys ⟨idx, h⟩ x = ⟨a, b, c, d, e, x.x5 ^^^ F .f6 5 a⟩) ∧
    (let f := x.x5 ^^^ F .f6 5 x.x0
     hexadInv cfg keys ⟨idx, h⟩ x =
      ⟨x.x0 ^^^ F .f5 4 x.x1, x.x1 ^^^ F .f4 3 x.x2, x.x2 ^^^ F .f3 2 x.x3, x.x3 ^^^ F .f2 1 x.x4,
        x.x4 ^^^ F .f1 0 f, f⟩)

/-- R145, R146: the twelve rounds of each direction and their offsets, in order. -/
def Obligations.BlockCipherSequences : Prop :=
  ∀ (cfg : Config) (keys : KeySet) (b : Vector Byte 24),
    let H := hexad cfg keys
    let I := hexadInv cfg keys
    encryptBlock cfg keys b =
      unpackBlock (I 66 (I 60 (I 54 (I 48 (I 42 (I 36 (H 30 (H 24 (H 18 (H 12 (H 6 (H 0 (packBlock b))))))))))))) ∧
    decryptBlock cfg keys b =
      unpackBlock (I 0 (I 6 (I 12 (I 18 (I 24 (I 30 (H 36 (H 42 (H 48 (H 54 (H 60 (H 66 (packBlock b)))))))))))))

/-- R142: HEXAD and HEXADINV undo each other at every offset, for every table, parameter value and KeySet; each is a
bijection; neither is an involution in general. -/
def Obligations.HexadAndHexadInvAreMutualInverses : Prop :=
  (∀ (cfg : Config) (keys : KeySet) (idx : Fin 67) (x : DataBlock),
    hexadInv cfg keys idx (hexad cfg keys idx x) = x ∧ hexad cfg keys idx (hexadInv cfg keys idx x) = x) ∧
  (∀ (cfg : Config) (keys : KeySet) (idx : Fin 67),
    Function.Bijective (hexad cfg keys idx) ∧ Function.Bijective (hexadInv cfg keys idx)) ∧
  (∃ (cfg : Config) (keys : KeySet) (idx : Fin 67) (x : DataBlock), hexad cfg keys idx (hexad cfg keys idx x) ≠ x) ∧
  (∃ (cfg : Config) (keys : KeySet) (idx : Fin 67) (x : DataBlock), hexadInv cfg keys idx (hexadInv cfg keys idx x) ≠ x)

/-- R143, R144: word `j` of a packed block is `BE32` of bytes `4j .. 4j+3`, those bytes of an unpacked block are
`Bytes32(x[j])`, the rule's example, and the two are mutual inverses. -/
def Obligations.BlockPackingRoundTrips : Prop :=
  (∀ (b : Vector Byte 24) (j : Fin 6),
    (packBlock b).word j = be32 b[4 * j.val] b[4 * j.val + 1] b[4 * j.val + 2] b[4 * j.val + 3]) ∧
  (∀ (x : DataBlock) (j : Fin 6) (k : Fin 4), (unpackBlock x)[4 * j.val + k.val] = byte32 (x.word j) k) ∧
  packBlock (Vector.ofFn fun i => BitVec.ofNat 8 i.val) =
    ⟨0x00010203#32, 0x04050607#32, 0x08090A0B#32, 0x0C0D0E0F#32, 0x10111213#32, 0x14151617#32⟩ ∧
  (∀ b : Vector Byte 24, unpackBlock (packBlock b) = b) ∧ (∀ x : DataBlock, packBlock (unpackBlock x) = x)

/-- R147: decryption undoes encryption and encryption undoes decryption, for every block, KeySet and configuration; the
two differ in general; with zero tables both are the identity. -/
def Obligations.BlockCipherRoundTrips : Prop :=
  (∀ (cfg : Config) (keys : KeySet) (b : Vector Byte 24),
    decryptBlock cfg keys (encryptBlock cfg keys b) = b ∧ encryptBlock cfg keys (decryptBlock cfg keys b) = b) ∧
  (∃ (cfg : Config) (keys : KeySet) (b : Vector Byte 24), encryptBlock cfg keys b ≠ decryptBlock cfg keys b) ∧
  (∀ (cfg : Config) (keys : KeySet) (b : Vector Byte 24), (∀ t x, cfg.sbox t x = 0#32) →
    encryptBlock cfg keys b = b ∧ decryptBlock cfg keys b = b)

/-! ## The commands of the cipher unit -/

/-- R127, R128: CIPH_INIT completes for every key length in every state; the KeySet is that of
`KEYBUF[0 .. min(KLEN,48) − 1]`; it touches neither the mode unit nor a buffer. -/
def Obligations.CiphInitLoadsTheKeySet : Prop :=
  ∀ (klen : Nat) (s : State), ∃ t, exec (.ciphInit klen) s = .next t ∧
    t.keys = generateRoundKeys Config.built
      ((List.range (min klen 48)).map fun i => readByte Config.built s (0x040 + i)) ∧
    t.keyed = true ∧ t.lastErr = .ok ∧ t.errSeen = s.errSeen ∧
    SameMode s t ∧ SameBytes Config.built s t ∧ SameHostSide s t

/-- R128, R194: a key length above 48 acts as 48; below 4 as 0; 44 to 47 give the KeySet of the first 44 bytes followed
by four zero bytes. -/
def Obligations.KeyLengthCornerCases : Prop :=
  (∀ (klen : Nat) (s : State), 48 ≤ klen → exec (.ciphInit klen) s = exec (.ciphInit 48) s) ∧
  (∀ (klen : Nat) (s : State), klen < 4 → exec (.ciphInit klen) s = exec (.ciphInit 0) s) ∧
  (∀ (klen : Nat) (s : State), 44 ≤ klen → klen ≤ 47 → ∃ t, exec (.ciphInit klen) s = .next t ∧
    t.keys = generateRoundKeys Config.built
      (((List.range 44).map fun i => readByte Config.built s (0x040 + i)) ++ [0#8, 0#8, 0#8, 0#8]))

/-- R145, R148: CIPH_ENC of 24 bytes on a keyed CORE completes; `DBUF[0..23]` becomes its encryption in place; every
other byte, the KeySet, the mode unit and the flags but LAST_ERR are unchanged. -/
def Obligations.CiphEncTransformsTheBlock : Prop :=
  ∀ s : State, s.keyed = true → ∃ t, exec (.ciphEnc 24) s = .next t ∧
    (∀ k : Fin 24, readByte Config.built t (0x100 + k.val) =
      (encryptBlock Config.built s.keys (Vector.ofFn fun i => readByte Config.built s (0x100 + i.val)))[k]) ∧
    SameBytesOutside Config.built 0x100 24 s t ∧
    t.lastErr = .ok ∧ t.errSeen = s.errSeen ∧ SameCipher s t ∧ SameMode s t ∧ SameHostSide s t

/-- R146, R149: CIPH_DEC of 24 bytes on a keyed CORE completes; `DBUF[0..23]` becomes its decryption in place; every
other byte, the KeySet, the mode unit and the flags but LAST_ERR are unchanged. -/
def Obligations.CiphDecTransformsTheBlock : Prop :=
  ∀ s : State, s.keyed = true → ∃ t, exec (.ciphDec 24) s = .next t ∧
    (∀ k : Fin 24, readByte Config.built t (0x100 + k.val) =
      (decryptBlock Config.built s.keys (Vector.ofFn fun i => readByte Config.built s (0x100 + i.val)))[k]) ∧
    SameBytesOutside Config.built 0x100 24 s t ∧
    t.lastErr = .ok ∧ t.errSeen = s.errSeen ∧ SameCipher s t ∧ SameMode s t ∧ SameHostSide s t

/-- R148, R149, R191, R192, R195: a block command on a CORE that is not keyed fails with NOT_INITIALISED whatever its
length; on a keyed one, a length other than 24 fails with INVALID_LENGTH; nothing else changes. -/
def Obligations.BlockCommandErrors : Prop :=
  ∀ (dlen : Nat) (s : State) (i : Instr), i = .ciphEnc dlen ∨ i = .ciphDec dlen →
    (s.keyed = false → exec i s = .next { s with lastErr := .notInitialised, errSeen := true }) ∧
    (s.keyed = true → dlen ≠ 24 → exec i s = .next { s with lastErr := .invalidLength, errSeen := true })

/-- R147 at the port (source property L1.1): on a keyed CORE, CIPH_ENC then CIPH_DEC, and CIPH_DEC then CIPH_ENC, give
back every byte of every buffer, with LAST_ERR 0 and everything else as it was. -/
def Obligations.BlockCommandsUndoEachOther : Prop :=
  ∀ s : State, s.keyed = true → ∀ i j : Instr,
    (i = .ciphEnc 24 ∧ j = .ciphDec 24) ∨ (i = .ciphDec 24 ∧ j = .ciphEnc 24) →
    ∃ t u, exec i s = .next t ∧ exec j t = .next u ∧ SameBytes Config.built s u ∧
      u.lastErr = .ok ∧ u.errSeen = s.errSeen ∧ SameCipher s u ∧ SameMode s u ∧ SameHostSide s u

/-! ## The commands of the mode unit -/

/-- R161: a keystream block is the encryption of `NONCE ‖ Bytes64(c)`: input words 0 to 3 are the nonce, words 4 and 5 the
high and low halves of the counter; with zero tables it is that input. -/
def Obligations.KeystreamBlockEncryptsNonceAndCounter : Prop :=
  ∀ (cfg : Config) (keys : KeySet) (nonce : Vector Byte 16) (c : Count),
    keystreamBlock cfg keys nonce c = encryptBlock cfg keys (keystreamInput nonce c) ∧
    (∀ i : Fin 16, (keystreamInput nonce c)[i.val] = nonce[i]) ∧
    (∀ i : Fin 8, ((keystreamInput nonce c)[16 + i.val]).toNat = c.toNat / 2 ^ (8 * (7 - i.val)) % 256) ∧
    (∀ j : Fin 4, (packBlock (keystreamInput nonce c)).word ⟨j.val, by omega⟩ =
      be32 nonce[4 * j.val] nonce[4 * j.val + 1] nonce[4 * j.val + 2] nonce[4 * j.val + 3]) ∧
    (packBlock (keystreamInput nonce c)).x4 = c.extractLsb' 32 32 ∧
    (packBlock (keystreamInput nonce c)).x5 = c.extractLsb' 0 32 ∧
    ((∀ t x, cfg.sbox t x = 0#32) → keystreamBlock cfg keys nonce c = keystreamInput nonce c)

/-- R165: CTR_INIT with a 16-byte nonce completes in every state, for every key length; it copies the nonce, sets the
counter to 0 and the cursor to empty, loads the KeySet, sets both flags; KS and the buffers are unchanged. -/
def Obligations.CtrInitBindsKeyAndNonce : Prop :=
  ∀ (klen : Nat) (s : State), ∃ t, exec (.ctrInit klen 16) s = .next t ∧
    (∀ k : Fin 16, t.nonce[k] = readByte Config.built s (0x070 + k.val)) ∧
    t.ctr = 0#64 ∧ t.cur = 24#5 ∧ t.ks = s.ks ∧
    t.keys = generateRoundKeys Config.built
      ((List.range (min klen 48)).map fun i => readByte Config.built s (0x040 + i)) ∧
    t.keyed = true ∧ t.ctrReady = true ∧ t.lastErr = .ok ∧ t.errSeen = s.errSeen ∧
    SameBytes Config.built s t ∧ SameHostSide s t

/-- R165, R192: CTR_INIT with any other nonce length fails with INVALID_LENGTH, and not even the key is loaded. -/
def Obligations.CtrInitRejectsOtherNonceLengths : Prop :=
  ∀ (klen nlen : Nat) (s : State), nlen ≠ 16 →
    exec (.ctrInit klen nlen) s = .next { s with lastErr := .invalidLength, errSeen := true }

/-- R161 to R167: CTR_ENC and CTR_DEC of `n ≤ DBUF_BYTES` bytes on a ready CORE complete. Byte `k` of DBUF is XORed
first with what is left in KS, then with the blocks numbered CTR, CTR + 1, ...; every other byte is unchanged. With `n`
within what is left, CTR and KS do not change; beyond it, the number of refills is `ceil((n − (24 − CUR)) / 24)`. -/
def Obligations.StreamCommandsXorTheKeystream : Prop :=
  ∀ (decrypting : Bool) (n : Nat) (s : State),
    s.ctrReady = true → s.cur.toNat ≤ 24 → n ≤ Config.built.dbufBytes →
    ∃ t, exec (streamInstr decrypting n) s = .next t ∧
      (∀ k, k < n → readByte Config.built t (0x100 + k) = readByte Config.built s (0x100 + k) ^^^
        (if h : s.cur.toNat + k < 24 then s.ks[s.cur.toNat + k]
         else logicalByte Config.built s.keys s.nonce s.ctr (s.cur.toNat + k - 24))) ∧
      SameBytesOutside Config.built 0x100 n s t ∧
      (n ≤ 24 - s.cur.toNat → t.ctr = s.ctr ∧ t.ks = s.ks ∧ t.cur.toNat = s.cur.toNat + n) ∧
      (24 - s.cur.toNat < n →
        t.ctr = s.ctr + BitVec.ofNat 64 ((n - (24 - s.cur.toNat) + 23) / 24) ∧
        t.ks = keystreamBlock Config.built s.keys s.nonce (t.ctr - 1#64) ∧
        t.cur.toNat = (n - (24 - s.cur.toNat) - 1) % 24 + 1) ∧
      t.nonce = s.nonce ∧ t.ctrReady = true ∧ t.lastErr = .ok ∧ t.errSeen = s.errSeen ∧
      SameCipher s t ∧ SameHostSide s t

/-- R166, R169, R191, R192, R195: a mode command before CTR_INIT fails with NOT_INITIALISED whatever its length, also on
a keyed CORE; after it, a stream longer than DBUF_BYTES or a seek operand longer than 8 fails with INVALID_LENGTH;
nothing else changes. -/
def Obligations.ModeCommandErrors : Prop :=
  ∀ (n : Nat) (s : State),
    (∀ decrypting : Bool,
      (s.ctrReady = false →
        exec (streamInstr decrypting n) s = .next { s with lastErr := .notInitialised, errSeen := true }) ∧
      (s.ctrReady = true → Config.built.dbufBytes < n →
        exec (streamInstr decrypting n) s = .next { s with lastErr := .invalidLength, errSeen := true })) ∧
    (s.ctrReady = false → exec (.ctrSeek n) s = .next { s with lastErr := .notInitialised, errSeen := true }) ∧
    (s.ctrReady = true → 8 < n → exec (.ctrSeek n) s = .next { s with lastErr := .invalidLength, errSeen := true })

/-- R167: CTR_DEC is CTR_ENC, in every state and for every length. -/
def Obligations.CtrDecIsCtrEnc : Prop :=
  ∀ (n : Nat) (s : State), exec (.ctrDec n) s = exec (.ctrEnc n) s

/-- R171: standing at byte `j` of the logical keystream from `c0`, a stream command of `n` bytes XORs byte `k` with
`Z(c0, j + k)` and leaves the unit at byte `j + n`, under the same KeySet and nonce. -/
def Obligations.StreamFollowsTheLogicalKeystream : Prop :=
  ∀ (decrypting : Bool) (c0 : Count) (j n : Nat) (s : State),
    StreamAt Config.built c0 j s → s.ctrReady = true → n ≤ Config.built.dbufBytes →
    ∃ t, exec (streamInstr decrypting n) s = .next t ∧ StreamAt Config.built c0 (j + n) t ∧
      (∀ k, k < n → readByte Config.built t (0x100 + k) =
        readByte Config.built s (0x100 + k) ^^^ logicalByte Config.built s.keys s.nonce c0 (j + k)) ∧
      t.keys = s.keys ∧ t.nonce = s.nonce ∧ t.ctrReady = true

/-- R171: CTR_INIT leaves the unit at byte 0 of the keystream from counter 0, CTR_SEEK at byte 0 of the keystream from
its operand. -/
def Obligations.InitAndSeekStartTheKeystream : Prop :=
  (∀ (klen : Nat) (s : State), ∃ t, exec (.ctrInit klen 16) s = .next t ∧ StreamAt Config.built 0#64 0 t) ∧
  (∀ (clen : Nat) (s : State), s.ctrReady = true → clen ≤ 8 → ∃ t, exec (.ctrSeek clen) s = .next t ∧
    StreamAt Config.built
      (counterOfBytes ((List.range clen).map fun k => readByte Config.built s (0x080 + k))) 0 t)

/-- R172 for stream commands with nothing between them: after `j` bytes in all, processed by any sequence of CTR_ENC and
CTR_DEC commands of legal length from a position just set to `c0`: `j = 0` leaves `CUR = 24`, `CTR = c0`; `j > 0` leaves `CUR = ((j − 1) mod 24) + 1` and
`CTR = (c0 + (j − 1) div 24 + 1) mod 2^64`. -/
def Obligations.PositionAfterStreamCommands : Prop :=
  ∀ (cmds : List (Bool × Nat)) (c0 : Count) (s : State),
    s.ctrReady = true → s.cur = 24#5 → s.ctr = c0 → (∀ c ∈ cmds, c.2 ≤ Config.built.dbufBytes) →
    ∃ t, execAll (cmds.map fun c => streamInstr c.1 c.2) s = .next t ∧
      let j := (cmds.map fun c => c.2).sum
      (j = 0 → t.cur = 24#5 ∧ t.ctr = c0) ∧
      (0 < j → t.cur.toNat = (j - 1) % 24 + 1 ∧ t.ctr.toNat = (c0.toNat + (j - 1) / 24 + 1) % 2 ^ 64)

/-- R172: CTR_INIT and CTR_SEEK to `c0` leave the CORE ready with `CUR = 24`, `CTR = c0`. From there the host plays any
accesses that R59 lists, `k` of them served, none a reset and none a CTR_INIT or CTR_SEEK that succeeds: block commands,
CIPH_INIT, failing commands, illegal words, reads and buffer writes may all come between. The run completes, and with `j`
the bytes its stream commands processed: `j = 0` leaves `CUR = 24`, `CTR = c0`; `j > 0` leaves
`CUR = ((j − 1) mod 24) + 1` and `CTR = (c0 + (j − 1) div 24 + 1) mod 2^64`. -/
def Obligations.PositionAlongAnyRun : Prop :=
  (∀ (klen : Nat) (s : State), ∃ t, exec (.ctrInit klen 16) s = .next t ∧
    t.ctrReady = true ∧ t.cur = 24#5 ∧ t.ctr = 0#64) ∧
  (∀ (clen : Nat) (s : State), s.ctrReady = true → clen ≤ 8 → ∃ t, exec (.ctrSeek clen) s = .next t ∧
    t.ctrReady = true ∧ t.cur = 24#5 ∧
    t.ctr = counterOfBytes ((List.range clen).map fun k => readByte Config.built s (0x080 + k))) ∧
  (∀ (k : Nat) (c0 : Count) (s : State), s.ctrReady = true → s.cur = 24#5 → s.ctr = c0 →
    (∀ e ∈ s.port.take k, meaningful Config.built e = true ∧ setsPosition e = false) →
    ∃ t : State, Host.Core.run Sys2Proof.core k s = .next t ∧ t.ctrReady = true ∧
      let j := ((s.port.take k).map (streamBytes Config.built)).sum
      (j = 0 → t.cur = 24#5 ∧ t.ctr = c0) ∧
      (0 < j → t.cur.toNat = (j - 1) % 24 + 1 ∧ t.ctr.toNat = (c0.toNat + (j - 1) / 24 + 1) % 2 ^ 64))

/-- R176: one stream command of `a + b` bytes gives the same output and the same final CTR, CUR, KS as one of `a` bytes
and then one of `b` bytes on the rest of the data loaded at `DBUF[0]`, whatever mix of CTR_ENC and CTR_DEC. `u` is the
state after the host's reload, and after whatever else came between the two chunks: it agrees with the state after the
first command in the KeySet and the mode state, and may differ in all else. -/
def Obligations.SplitInvariance : Prop :=
  ∀ (d1 d2 d3 : Bool) (a b : Nat) (s t u : State),
    s.ctrReady = true → a + b ≤ Config.built.dbufBytes →
    exec (streamInstr d1 a) s = .next t →
    u.keys = t.keys → u.nonce = t.nonce → u.ctr = t.ctr → u.cur = t.cur → u.ks = t.ks → u.ctrReady = t.ctrReady →
    (∀ k, k < b → readByte Config.built u (0x100 + k) = readByte Config.built s (0x100 + (a + k))) →
    ∃ v w, exec (streamInstr d2 b) u = .next v ∧ exec (streamInstr d3 (a + b)) s = .next w ∧
      w.ctr = v.ctr ∧ w.cur = v.cur ∧ w.ks = v.ks ∧
      (∀ k, k < a → readByte Config.built w (0x100 + k) = readByte Config.built t (0x100 + k)) ∧
      (∀ k, k < b → readByte Config.built w (0x100 + (a + k)) = readByte Config.built v (0x100 + k))

/-- R168: processing the output again from an equal keystream position (KeySet, NONCE, CTR, CUR, KS) restores the
input, whichever of CTR_ENC and CTR_DEC is used each time. -/
def Obligations.StreamIsAnInvolution : Prop :=
  ∀ (d1 d2 : Bool) (n : Nat) (s t u : State),
    s.ctrReady = true → u.ctrReady = true → n ≤ Config.built.dbufBytes → exec (streamInstr d1 n) s = .next t →
    u.keys = s.keys → u.nonce = s.nonce → u.ctr = s.ctr → u.cur = s.cur → u.ks = s.ks →
    (∀ k, k < n → readByte Config.built u (0x100 + k) = readByte Config.built t (0x100 + k)) →
    ∃ v, exec (streamInstr d2 n) u = .next v ∧
      ∀ k, k < n → readByte Config.built v (0x100 + k) = readByte Config.built s (0x100 + k)

/-- R170: `CounterOfBytes` is the big-endian sum, unchanged by left zero padding to 8 bytes, with the rule's examples. -/
def Obligations.CounterOfBytesIsBigEndian : Prop :=
  (∀ bs : List Byte, bs.length ≤ 8 →
    (counterOfBytes bs).toNat =
      ((List.range bs.length).map fun k => (bs.getD k 0#8).toNat * 2 ^ (8 * (bs.length - 1 - k))).sum ∧
    counterOfBytes (List.replicate (8 - bs.length) 0#8 ++ bs) = counterOfBytes bs) ∧
  counterOfBytes [] = 0#64 ∧ counterOfBytes [1#8] = 1#64 ∧ counterOfBytes [1#8, 2#8] = 0x0102#64 ∧
  counterOfBytes (List.replicate 8 0xFF#8) = BitVec.allOnes 64 ∧
  counterOfBytes [0#8, 0#8, 0#8, 0#8, 0#8, 0#8, 0#8, 5#8] = 5#64

/-- R169: CTR_SEEK with an operand of at most 8 bytes on a ready CORE completes: CTR becomes the big-endian number in
`SEEKBUF[0 .. CLEN − 1]`, the buffer is marked empty, KS, the nonce, the KeySet and every buffer byte are unchanged. -/
def Obligations.CtrSeekSetsTheCounter : Prop :=
  ∀ (clen : Nat) (s : State), s.ctrReady = true → clen ≤ 8 → ∃ t, exec (.ctrSeek clen) s = .next t ∧
    t.ctr.toNat =
      ((List.range clen).map fun k => (readByte Config.built s (0x080 + k)).toNat * 2 ^ (8 * (clen - 1 - k))).sum ∧
    t.cur = 24#5 ∧ t.ks = s.ks ∧ t.nonce = s.nonce ∧ t.ctrReady = true ∧ t.lastErr = .ok ∧ t.errSeen = s.errSeen ∧
    SameCipher s t ∧ SameBytes Config.built s t ∧ SameHostSide s t

/-- R66, R179, R221: CIPH_INIT on a ready CORE leaves the stream position and the buffered keystream; the next stream
command consumes what is left of the old block first and then blocks under the new KeySet with the old nonce. -/
def Obligations.RekeyKeepsBufferedKeystream : Prop :=
  ∀ (klen n : Nat) (s : State), s.ctrReady = true → s.cur.toNat ≤ 24 → n ≤ Config.built.dbufBytes →
    ∃ t u, exec (.ciphInit klen) s = .next t ∧ SameMode s t ∧ exec (.ctrEnc n) t = .next u ∧
      ∀ k, k < n → readByte Config.built u (0x100 + k) = readByte Config.built s (0x100 + k) ^^^
        (if h : s.cur.toNat + k < 24 then s.ks[s.cur.toNat + k]
         else logicalByte Config.built
          (generateRoundKeys Config.built
            ((List.range (min klen 48)).map fun i => readByte Config.built s (0x040 + i)))
          s.nonce s.ctr (s.cur.toNat + k - 24))

/-- R178 with R91: the script `CTR_SEEK_BYTE N`, played at the port of a ready CORE, leaves it at byte `N` of the logical
keystream that starts at counter 0, with the same KeySet and nonce and the rest of the host's accesses still pending. -/
def Obligations.SeekByteScriptReachesTheByte : Prop :=
  ∀ (N : Nat) (rest : List HostEvent) (s : State),
    s.ctrReady = true → N / 24 < 2 ^ 64 → s.port = Script.ctrSeekByte N ++ rest →
    ∃ t : State, Host.Core.run Sys2Proof.core (Script.ctrSeekByte N).length s = .next t ∧
      t.port = rest ∧ t.answers = s.answers ∧ t.keys = s.keys ∧ t.nonce = s.nonce ∧ t.ctrReady = true ∧
      StreamAt Config.built 0#64 N t

/-! ## Errors, flags, write sets -/

/-- R198: the result code of every command in every flag state that can occur, and of an illegal word. -/
def Obligations.OutcomeTable : Prop :=
  ∀ s : State, (s.ctrReady = true → s.keyed = true) →
    (∀ klen, ∃ t, exec (.ciphInit klen) s = .next t ∧ t.lastErr = .ok) ∧
    (∀ (dlen : Nat) (i : Instr), i = .ciphEnc dlen ∨ i = .ciphDec dlen → ∃ t, exec i s = .next t ∧
      t.lastErr = if s.keyed = false then .notInitialised else if dlen = 24 then .ok else .invalidLength) ∧
    (∀ klen nlen, ∃ t, exec (.ctrInit klen nlen) s = .next t ∧
      t.lastErr = if nlen = 16 then .ok else .invalidLength) ∧
    (∀ (dlen : Nat) (i : Instr), i = .ctrEnc dlen ∨ i = .ctrDec dlen → ∃ t, exec i s = .next t ∧
      t.lastErr = if s.ctrReady = false then .notInitialised
        else if dlen ≤ Config.built.dbufBytes then .ok else .invalidLength) ∧
    (∀ clen, ∃ t, exec (.ctrSeek clen) s = .next t ∧
      t.lastErr = if s.ctrReady = false then .notInitialised else if clen ≤ 8 then .ok else .invalidLength) ∧
    (∀ (c : Word) (why : IllegalWord) (rest : List HostEvent), decode c = .illegal why →
      s.port = .write 0x000 4 c :: rest → ∃ t, step s = .next t ∧ t.lastErr = .illegalCommand)

/-- R196: a command that ends with an error code has changed nothing but LAST_ERR and ERR_SEEN, which is set; the same
for an illegal word. -/
def Obligations.FailureChangesOnlyTheErrorFlags : Prop :=
  (∀ (i : Instr) (s : State), ∃ t, exec i s = .next t ∧
    (t.lastErr ≠ .ok → t = { s with lastErr := t.lastErr, errSeen := true })) ∧
  (∀ (s : State) (c : Word) (why : IllegalWord) (rest : List HostEvent), decode c = .illegal why →
    s.port = .write 0x000 4 c :: rest →
    step s = .next { s with port := rest, lastErr := .illegalCommand, errSeen := true })

/-- R42: what a successful command may write, command by command; a failing one only LAST_ERR and ERR_SEEN; a host write
to a buffer byte only that byte; a host write to CMD as the command decoded; a host read or a write to STATUS nothing. -/
def Obligations.WriteSets : Prop :=
  (∀ (i : Instr) (s t : State), exec i s = .next t → t.lastErr = .ok →
    match i with
    | .ciphInit _ => t = { s with keys := t.keys, keyed := t.keyed, lastErr := .ok }
    | .ciphEnc _ | .ciphDec _ => t = { s with mem := t.mem, lastErr := .ok } ∧ SameBytesOutside Config.built 0x100 24 s t
    | .ctrInit _ _ =>
      t = { s with nonce := t.nonce, ctr := t.ctr, cur := t.cur, keys := t.keys, keyed := t.keyed,
                   ctrReady := t.ctrReady, lastErr := .ok }
    | .ctrEnc n | .ctrDec n =>
      t = { s with mem := t.mem, ks := t.ks, ctr := t.ctr, cur := t.cur, lastErr := .ok } ∧
        SameBytesOutside Config.built 0x100 n s t ∧ (n ≤ 24 - s.cur.toNat → t.ks = s.ks ∧ t.ctr = s.ctr)
    | .ctrSeek _ => t = { s with ctr := t.ctr, cur := t.cur, lastErr := .ok }) ∧
  (∀ (i : Instr) (s t : State), exec i s = .next t → t.lastErr ≠ .ok →
    t = { s with lastErr := t.lastErr, errSeen := t.errSeen }) ∧
  (∀ (a : Nat) (b : Byte) (rest : List HostEvent) (s : State), bufferByteAt Config.built a = true →
    s.port = Script.wr8 a b :: rest → ∃ t, step s = .next t ∧ t = { s with port := rest, mem := t.mem } ∧
      readByte Config.built t a = b ∧ SameBytesOutside Config.built a 1 s t) ∧
  (∀ (c : Word) (rest : List HostEvent) (s : State) (i : Instr), s.port = Script.wr32 0x000 c :: rest →
    decode c = .command i → step s = exec i { s with port := rest }) ∧
  (∀ (a n : Nat) (rest : List HostEvent) (s t : State), s.port = .read a n :: rest → step s = .next t →
    t = { s with port := rest, answers := t.answers }) ∧
  (∀ (v : Word) (rest : List HostEvent) (s : State), s.port = Script.wr32 0x004 v :: rest →
    step s = .next { s with port := rest })

/-- R22, R28, R30: KEYED, CTR_READY and ERR_SEEN are cleared by nothing but a reset. -/
def Obligations.OnlyResetClearsTheFlags : Prop :=
  ∀ s t : State, step s = .next t → (∀ rest, s.port ≠ .reset :: rest) →
    (s.keyed = true → t.keyed = true) ∧ (s.ctrReady = true → t.ctrReady = true) ∧ (s.errSeen = true → t.errSeen = true)

/-- R20, R21, R24, R25, R26: a step that changes the KeySet runs CIPH_INIT, CTR_INIT or a reset; one that changes the
nonce runs CTR_INIT or a reset; the keystream buffer, CTR_ENC, CTR_DEC or a reset; the counter, one of the mode's
commands or a reset. -/
def Obligations.OnlyTheseCommandsWriteTheSecrets : Prop :=
  ∀ s t : State, step s = .next t →
    let runs := fun (ok : Instr → Prop) => ∃ e rest, s.port = e :: rest ∧
      (e = .reset ∨ ∃ c i, e = .write 0x000 4 c ∧ decode c = .command i ∧ ok i)
    (t.keys ≠ s.keys → runs fun i => (∃ n, i = .ciphInit n) ∨ ∃ n k, i = .ctrInit n k) ∧
    (t.nonce ≠ s.nonce → runs fun i => ∃ n k, i = .ctrInit n k) ∧
    (t.ks ≠ s.ks → runs fun i => ∃ d n, i = streamInstr d n) ∧
    (t.ctr ≠ s.ctr → runs fun i => (∃ n k, i = .ctrInit n k) ∨ (∃ n, i = .ctrSeek n) ∨ ∃ d n, i = streamInstr d n)

/-- R33: the layout of STATUS, field by field, with the reserved bits 0 and the reset value 0; reading it changes nothing
in the CORE, writing it nothing at all. -/
def Obligations.StatusLayout : Prop :=
  (∀ s : State, (status s).getLsbD 0 = s.keyed ∧ (status s).getLsbD 1 = s.ctrReady ∧ (status s).getLsbD 2 = s.errSeen ∧
    (status s).getLsbD 3 = false ∧
    (status s).extractLsb' 4 2 =
      (match s.lastErr with | .ok => 0#2 | .notInitialised => 1#2 | .invalidLength => 2#2 | .illegalCommand => 3#2) ∧
    (status s).extractLsb' 6 26 = 0#26) ∧
  status State.reset = 0#32 ∧
  (∀ (s : State) (rest : List HostEvent), s.port = .read 0x004 4 :: rest →
    step s = .next { s with port := rest, answers := status s :: s.answers }) ∧
  (∀ (s : State) (v : Word) (rest : List HostEvent), s.port = .write 0x004 4 v :: rest →
    step s = .next { s with port := rest })

/-! ## The port and the step -/

/-- R32, R87, R89: when the host's next access writes to CMD a word that decodes to a command, the step is that command
on the state with the access taken off the port. -/
def Obligations.StepRunsTheDecodedCommand : Prop :=
  ∀ (s : State) (c : Word) (i : Instr) (rest : List HostEvent),
    s.port = .write 0x000 4 c :: rest → decode c = .command i → step s = exec i { s with port := rest }

/-- R13, R89: every one of the 2^32 words written to CMD completes, in every state: the step is a next state with the
access served, nothing answered and no reset taken. -/
def Obligations.EveryCommandWordCompletes : Prop :=
  ∀ (s : State) (c : Word) (rest : List HostEvent), s.port = .write 0x000 4 c :: rest →
    ∃ t, step s = .next t ∧ t.port = rest ∧ t.answers = s.answers ∧ t.draw = s.draw

/-- R59, R54: the three kinds of host read answer with 0, STATUS or the buffer byte, and change nothing in the CORE. -/
def Obligations.HostReadsAnswerAndChangeNothing : Prop :=
  ∀ (s : State) (rest : List HostEvent),
    (s.port = .read 0x000 4 :: rest → step s = .next { s with port := rest, answers := 0#32 :: s.answers }) ∧
    (s.port = .read 0x004 4 :: rest → step s = .next { s with port := rest, answers := status s :: s.answers }) ∧
    (∀ a, bufferByteAt Config.built a = true → s.port = .read a 1 :: rest →
      step s = .next { s with port := rest, answers := (readByte Config.built s a).setWidth 32 :: s.answers })

/-- R51, R10: the buffer addresses are the ranges of the map, for every DBUF_BYTES in 24..65535. -/
def Obligations.AddressMapOfTheBuffers : Prop :=
  ∀ cfg : Config, 24 ≤ cfg.dbufBytes ∧ cfg.dbufBytes ≤ 65535 ∧
    ∀ a, bufferByteAt cfg a = true ↔
      (∃ i, i ≤ 47 ∧ a = 0x040 + i) ∨ (∃ i, i ≤ 15 ∧ a = 0x070 + i) ∨ (∃ i, i ≤ 7 ∧ a = 0x080 + i) ∨
        (∃ i, i < cfg.dbufBytes ∧ a = 0x100 + i)

/-- R53, R59, R12: with an access pending, the step is refused exactly when R59 does not list the access, and otherwise
there is a next state; with none pending the CORE does nothing; nothing ever faults. That an address beyond the port's
width is refused, as natural numbers that do not wrap, is a DESIGN CHOICE (log entry 17), and so are the pending list
(log entry 6) and the names of the refusals (log entry 9). That nothing faults is DEDUCED (log entry 11: `Fault` has no
constructor). -/
def Obligations.RefusedExactlyWhenTheMapHasNoSuchAccess : Prop :=
  (∀ (s : State) (e : HostEvent) (rest : List HostEvent), s.port = e :: rest →
    (meaningful Config.built e = false → ∃ r, step s = .refused r) ∧
    (meaningful Config.built e = true → ∃ t, step s = .next t)) ∧
  (∀ s : State, s.port = [] → step s = .next s) ∧ (∀ (s : State) (f : Fault), step s ≠ .fault f)

/-- R215, R216, R41: a reset between two accesses always completes: the flags clear, the cursor is empty, the counter 0,
STATUS reads 0; the host's side is as it was. -/
def Obligations.ResetEventRestoresTheFlags : Prop :=
  ∀ (s : State) (rest : List HostEvent), s.port = .reset :: rest → ∃ t, step s = .next t ∧
    t.keyed = false ∧ t.ctrReady = false ∧ t.lastErr = .ok ∧ t.errSeen = false ∧ t.cur = 24#5 ∧ t.ctr = 0#64 ∧
    status t = 0#32 ∧ t.port = rest ∧ t.answers = s.answers

/-- R41, R216: the flags, CUR, CTR and STATUS in the reset state. The contents R41 leaves unspecified are not mentioned. -/
def Obligations.ResetStateFlags : Prop :=
  State.reset.keyed = false ∧ State.reset.ctrReady = false ∧ State.reset.lastErr = .ok ∧ State.reset.errSeen = false ∧
    State.reset.cur = 24#5 ∧ State.reset.ctr = 0#64 ∧ status State.reset = 0#32

/-! ## Invariants and secrecy -/

/-- R40 (b), (c), (d): the invariants hold right after reset. With them go the canonical form of the buffers and that only
buffer bytes are listed, which are the model's own (log entry 4). -/
def Obligations.InvariantAtReset : Prop := Inv Config.built State.reset

/-- R40 (b), (c), (d): every step keeps the invariants, whatever the host does. With them go the canonical form of the
buffers and that only buffer bytes are listed, which are the model's own (log entry 4). -/
def Obligations.EveryStepKeepsTheInvariant : Prop :=
  ∀ s t : State, Inv Config.built s → step s = .next t → Inv Config.built t

/-- R40 (b), (c), (d): the invariants hold all along every run, of any length, from any state that has them. With them go
the canonical form of the buffers and that only buffer bytes are listed, which are the model's own (log entry 4). -/
def Obligations.InvariantAlongEveryRun : Prop :=
  ∀ (k : Nat) (s t : State), Inv Config.built s → Host.Core.run Sys2Proof.core k s = .next t → Inv Config.built t

/-- R20, R21, R24 to R26, R203: the KeySet, the nonce, the counter, the keystream buffer and the cursor have no host
path. Of two COREs that look the same to the host and differ in those, any run without the four data commands takes one
as it takes the other: both complete, and they still look the same, answers included. -/
def Obligations.SecretsDoNotReachTheHostWithoutADataCommand : Prop :=
  ∀ (k : Nat) (s t s' : State), SameToHost s t → (∀ e ∈ s.port, noDataCommand e = true) →
    Host.Core.run Sys2Proof.core k s = .next s' →
    ∃ t' : State, Host.Core.run Sys2Proof.core k t = .next t' ∧ SameToHost s' t'

/-- R34, R64, R220: a key-loading command samples KEYBUF when it runs. On any two COREs with equal bytes in
`KEYBUF[0 .. min(KLEN,48) − 1]` it completes with the same KeySet: nothing else of the state enters it. -/
def Obligations.OnlyTheKeyBytesEnterTheKeySet : Prop :=
  ∀ (klen nlen : Nat) (s t : State),
    (∀ i, i < min klen 48 → readByte Config.built t (0x040 + i) = readByte Config.built s (0x040 + i)) →
    (∃ s' t', exec (.ciphInit klen) s = .next s' ∧ exec (.ciphInit klen) t = .next t' ∧ t'.keys = s'.keys) ∧
    (nlen = 16 → ∃ s' t', exec (.ctrInit klen nlen) s = .next s' ∧ exec (.ctrInit klen nlen) t = .next t' ∧
      t'.keys = s'.keys)

/-! ## Encoding -/

/-- R85: a word is illegal exactly when `OP = 0`, `OP` is in `0x8 .. 0xF`, `RSV ≠ 0`, or `NLEN ≠ 0` with `OP ≠ 0x4`; the
fields are the bits R80 gives. -/
def Obligations.IllegalWordsAreTheReservedOnes : Prop :=
  ∀ w : Word, (∃ why, decode w = .illegal why) ↔
    w.toNat % 16 = 0 ∨ 8 ≤ w.toNat % 16 ∨ w.toNat / 2 ^ 4 % 16 ≠ 0 ∨ (w.toNat / 2 ^ 24 ≠ 0 ∧ w.toNat % 16 ≠ 4)

/-- R86: `word & mask == match` selects the command of each row, no word matches two rows, and a word that matches no
row is illegal. -/
def Obligations.DecodeAgreesWithTheMatchTable : Prop :=
  (∀ r ∈ encodingTable, ∀ w : Word,
    r.matchesWord w = true ↔ ∃ i, decode w = .command i ∧ i.mnemonic = r.mnemonic) ∧
  (encodingTable.Pairwise fun r q => ∀ w : Word, ¬ (r.matchesWord w = true ∧ q.matchesWord w = true)) ∧
  (∀ w : Word, (∀ r ∈ encodingTable, r.matchesWord w = false) → ∃ why, decode w = .illegal why)

/-- R80: `word = OP + 16·RSV + 256·LEN + 2^24·NLEN` with `RSV = 0`, for every well-formed command. -/
def Obligations.EncodedWordIsTheFieldSum : Prop :=
  ∀ i : Instr, i.wellFormed = true →
    (encode i).toNat = (opcodeOf i.mnemonic).toNat + 256 * i.lenField + 2 ^ 24 * i.nlenField

/-- R80, R85, R87: decoding an encoded well-formed command gives it back with every field, and every legal word decodes
to a well-formed command whose encoding is that word. -/
def Obligations.DecodeAndEncodeAreInverse : Prop :=
  (∀ i : Instr, i.wellFormed = true → decode (encode i) = .command i) ∧
  (∀ (w : Word) (i : Instr), decode w = .command i → i.wellFormed = true ∧ encode i = w)

/-- R88: the worked encodings, both ways, and the illegal words of the rule. -/
def Obligations.WorkedEncodings : Prop :=
  decode 0x00003001#32 = .command (.ciphInit 48) ∧ decode 0x00002C01#32 = .command (.ciphInit 44) ∧
  decode 0x00001802#32 = .command (.ciphEnc 24) ∧ decode 0x00001803#32 = .command (.ciphDec 24) ∧
  decode 0x10003004#32 = .command (.ctrInit 48 16) ∧ decode 0x00001905#32 = .command (.ctrEnc 25) ∧
  decode 0x00006406#32 = .command (.ctrDec 100) ∧ decode 0x00000207#32 = .command (.ctrSeek 2) ∧
  encode (.ciphInit 48) = 0x00003001#32 ∧ encode (.ciphInit 44) = 0x00002C01#32 ∧ encode (.ciphEnc 24) = 0x00001802#32 ∧
  encode (.ciphDec 24) = 0x00001803#32 ∧ encode (.ctrInit 48 16) = 0x10003004#32 ∧ encode (.ctrEnc 25) = 0x00001905#32 ∧
  encode (.ctrDec 100) = 0x00006406#32 ∧ encode (.ctrSeek 2) = 0x00000207#32 ∧
  decode 0x00000000#32 = .illegal .reservedOpcode ∧ decode 0x00000018#32 = .illegal .reservedOpcode ∧
  decode 0x00000012#32 = .illegal .reservedField ∧ decode 0x10001802#32 = .illegal .strayNonceLength
end

