-- ==== Sys2Proof/Laws/State.lean ====
section
/-!
SUPPORT. One lemma per field of State per shared update, each by unfolding the update once, so that no later proof
unfolds one.
-/

namespace Sys2Proof.Machine

/-! ### Fields after the end of a successful command (R190) -/

@[simp] theorem succeed_keys (s : State) : (succeed s).keys = s.keys := by dsimp only [succeed]
@[simp] theorem succeed_keyed (s : State) : (succeed s).keyed = s.keyed := by dsimp only [succeed]
@[simp] theorem succeed_nonce (s : State) : (succeed s).nonce = s.nonce := by dsimp only [succeed]
@[simp] theorem succeed_ctr (s : State) : (succeed s).ctr = s.ctr := by dsimp only [succeed]
@[simp] theorem succeed_ks (s : State) : (succeed s).ks = s.ks := by dsimp only [succeed]
@[simp] theorem succeed_cur (s : State) : (succeed s).cur = s.cur := by dsimp only [succeed]
@[simp] theorem succeed_ctrReady (s : State) : (succeed s).ctrReady = s.ctrReady := by dsimp only [succeed]
@[simp] theorem succeed_lastErr (s : State) : (succeed s).lastErr = .ok := by dsimp only [succeed]
@[simp] theorem succeed_errSeen (s : State) : (succeed s).errSeen = s.errSeen := by dsimp only [succeed]
@[simp] theorem succeed_mem (s : State) : (succeed s).mem = s.mem := by dsimp only [succeed]
@[simp] theorem succeed_draw (s : State) : (succeed s).draw = s.draw := by dsimp only [succeed]
@[simp] theorem succeed_port (s : State) : (succeed s).port = s.port := by dsimp only [succeed]
@[simp] theorem succeed_answers (s : State) : (succeed s).answers = s.answers := by dsimp only [succeed]

/-! ### Fields after `raise E` (R196) -/

@[simp] theorem raise_keys (e : ErrCode) (s : State) : (raise e s).keys = s.keys := by dsimp only [raise]
@[simp] theorem raise_keyed (e : ErrCode) (s : State) : (raise e s).keyed = s.keyed := by dsimp only [raise]
@[simp] theorem raise_nonce (e : ErrCode) (s : State) : (raise e s).nonce = s.nonce := by dsimp only [raise]
@[simp] theorem raise_ctr (e : ErrCode) (s : State) : (raise e s).ctr = s.ctr := by dsimp only [raise]
@[simp] theorem raise_ks (e : ErrCode) (s : State) : (raise e s).ks = s.ks := by dsimp only [raise]
@[simp] theorem raise_cur (e : ErrCode) (s : State) : (raise e s).cur = s.cur := by dsimp only [raise]
@[simp] theorem raise_ctrReady (e : ErrCode) (s : State) : (raise e s).ctrReady = s.ctrReady := by dsimp only [raise]
@[simp] theorem raise_lastErr (e : ErrCode) (s : State) : (raise e s).lastErr = e := by dsimp only [raise]
@[simp] theorem raise_errSeen (e : ErrCode) (s : State) : (raise e s).errSeen = true := by dsimp only [raise]
@[simp] theorem raise_mem (e : ErrCode) (s : State) : (raise e s).mem = s.mem := by dsimp only [raise]
@[simp] theorem raise_draw (e : ErrCode) (s : State) : (raise e s).draw = s.draw := by dsimp only [raise]
@[simp] theorem raise_port (e : ErrCode) (s : State) : (raise e s).port = s.port := by dsimp only [raise]
@[simp] theorem raise_answers (e : ErrCode) (s : State) : (raise e s).answers = s.answers := by dsimp only [raise]

/-! ### Fields after a buffer byte write (R54) -/

@[simp] theorem writeByte_keys (a : Nat) (b : Byte) (s : State) : (writeByte a b s).keys = s.keys := by dsimp only [writeByte]
@[simp] theorem writeByte_keyed (a : Nat) (b : Byte) (s : State) : (writeByte a b s).keyed = s.keyed := by dsimp only [writeByte]
@[simp] theorem writeByte_nonce (a : Nat) (b : Byte) (s : State) : (writeByte a b s).nonce = s.nonce := by dsimp only [writeByte]
@[simp] theorem writeByte_ctr (a : Nat) (b : Byte) (s : State) : (writeByte a b s).ctr = s.ctr := by dsimp only [writeByte]
@[simp] theorem writeByte_ks (a : Nat) (b : Byte) (s : State) : (writeByte a b s).ks = s.ks := by dsimp only [writeByte]
@[simp] theorem writeByte_cur (a : Nat) (b : Byte) (s : State) : (writeByte a b s).cur = s.cur := by dsimp only [writeByte]
@[simp] theorem writeByte_ctrReady (a : Nat) (b : Byte) (s : State) : (writeByte a b s).ctrReady = s.ctrReady := by dsimp only [writeByte]
@[simp] theorem writeByte_lastErr (a : Nat) (b : Byte) (s : State) : (writeByte a b s).lastErr = s.lastErr := by dsimp only [writeByte]
@[simp] theorem writeByte_errSeen (a : Nat) (b : Byte) (s : State) : (writeByte a b s).errSeen = s.errSeen := by dsimp only [writeByte]
@[simp] theorem writeByte_mem (a : Nat) (b : Byte) (s : State) : (writeByte a b s).mem = Memory.put s.mem a b := by dsimp only [writeByte]
@[simp] theorem writeByte_draw (a : Nat) (b : Byte) (s : State) : (writeByte a b s).draw = s.draw := by dsimp only [writeByte]
@[simp] theorem writeByte_port (a : Nat) (b : Byte) (s : State) : (writeByte a b s).port = s.port := by dsimp only [writeByte]
@[simp] theorem writeByte_answers (a : Nat) (b : Byte) (s : State) : (writeByte a b s).answers = s.answers := by dsimp only [writeByte]

/-! ### Fields after key setup (R127) -/

@[simp] theorem keySetup_keys (cfg : Config) (klen : Nat) (s : State) : (keySetup cfg klen s).keys = generateRoundKeys cfg (keyOperand cfg klen s) := by dsimp only [keySetup]
@[simp] theorem keySetup_keyed (cfg : Config) (klen : Nat) (s : State) : (keySetup cfg klen s).keyed = true := by dsimp only [keySetup]
@[simp] theorem keySetup_nonce (cfg : Config) (klen : Nat) (s : State) : (keySetup cfg klen s).nonce = s.nonce := by dsimp only [keySetup]
@[simp] theorem keySetup_ctr (cfg : Config) (klen : Nat) (s : State) : (keySetup cfg klen s).ctr = s.ctr := by dsimp only [keySetup]
@[simp] theorem keySetup_ks (cfg : Config) (klen : Nat) (s : State) : (keySetup cfg klen s).ks = s.ks := by dsimp only [keySetup]
@[simp] theorem keySetup_cur (cfg : Config) (klen : Nat) (s : State) : (keySetup cfg klen s).cur = s.cur := by dsimp only [keySetup]
@[simp] theorem keySetup_ctrReady (cfg : Config) (klen : Nat) (s : State) : (keySetup cfg klen s).ctrReady = s.ctrReady := by dsimp only [keySetup]
@[simp] theorem keySetup_lastErr (cfg : Config) (klen : Nat) (s : State) : (keySetup cfg klen s).lastErr = s.lastErr := by dsimp only [keySetup]
@[simp] theorem keySetup_errSeen (cfg : Config) (klen : Nat) (s : State) : (keySetup cfg klen s).errSeen = s.errSeen := by dsimp only [keySetup]
@[simp] theorem keySetup_mem (cfg : Config) (klen : Nat) (s : State) : (keySetup cfg klen s).mem = s.mem := by dsimp only [keySetup]
@[simp] theorem keySetup_draw (cfg : Config) (klen : Nat) (s : State) : (keySetup cfg klen s).draw = s.draw := by dsimp only [keySetup]
@[simp] theorem keySetup_port (cfg : Config) (klen : Nat) (s : State) : (keySetup cfg klen s).port = s.port := by dsimp only [keySetup]
@[simp] theorem keySetup_answers (cfg : Config) (klen : Nat) (s : State) : (keySetup cfg klen s).answers = s.answers := by dsimp only [keySetup]

/-! ### Fields after a refill (R162) -/

@[simp] theorem refill_keys (cfg : Config) (s : State) : (refill cfg s).keys = s.keys := by dsimp only [refill]
@[simp] theorem refill_keyed (cfg : Config) (s : State) : (refill cfg s).keyed = s.keyed := by dsimp only [refill]
@[simp] theorem refill_nonce (cfg : Config) (s : State) : (refill cfg s).nonce = s.nonce := by dsimp only [refill]
@[simp] theorem refill_ctr (cfg : Config) (s : State) : (refill cfg s).ctr = s.ctr + 1#64 := by dsimp only [refill]
@[simp] theorem refill_ks (cfg : Config) (s : State) : (refill cfg s).ks = keystreamBlock cfg s.keys s.nonce s.ctr := by dsimp only [refill]
@[simp] theorem refill_cur (cfg : Config) (s : State) : (refill cfg s).cur = 0#5 := by dsimp only [refill]
@[simp] theorem refill_ctrReady (cfg : Config) (s : State) : (refill cfg s).ctrReady = s.ctrReady := by dsimp only [refill]
@[simp] theorem refill_lastErr (cfg : Config) (s : State) : (refill cfg s).lastErr = s.lastErr := by dsimp only [refill]
@[simp] theorem refill_errSeen (cfg : Config) (s : State) : (refill cfg s).errSeen = s.errSeen := by dsimp only [refill]
@[simp] theorem refill_mem (cfg : Config) (s : State) : (refill cfg s).mem = s.mem := by dsimp only [refill]
@[simp] theorem refill_draw (cfg : Config) (s : State) : (refill cfg s).draw = s.draw := by dsimp only [refill]
@[simp] theorem refill_port (cfg : Config) (s : State) : (refill cfg s).port = s.port := by dsimp only [refill]
@[simp] theorem refill_answers (cfg : Config) (s : State) : (refill cfg s).answers = s.answers := by dsimp only [refill]

/-! ### Fields after the reset event (R215); key storage, nonce and keystream are draws (R41) -/

@[simp] theorem resetEvent_keyed (cfg : Config) (s : State) : (resetEvent cfg s).keyed = false := by dsimp only [resetEvent]
@[simp] theorem resetEvent_ctr (cfg : Config) (s : State) : (resetEvent cfg s).ctr = 0#64 := by dsimp only [resetEvent]
@[simp] theorem resetEvent_cur (cfg : Config) (s : State) : (resetEvent cfg s).cur = 24#5 := by dsimp only [resetEvent]
@[simp] theorem resetEvent_ctrReady (cfg : Config) (s : State) : (resetEvent cfg s).ctrReady = false := by dsimp only [resetEvent]
@[simp] theorem resetEvent_lastErr (cfg : Config) (s : State) : (resetEvent cfg s).lastErr = .ok := by dsimp only [resetEvent]
@[simp] theorem resetEvent_errSeen (cfg : Config) (s : State) : (resetEvent cfg s).errSeen = false := by dsimp only [resetEvent]
@[simp] theorem resetEvent_mem (cfg : Config) (s : State) : (resetEvent cfg s).mem = Memory.redraw cfg (s.draw + 1) s.mem := by dsimp only [resetEvent]
@[simp] theorem resetEvent_draw (cfg : Config) (s : State) : (resetEvent cfg s).draw = s.draw + 1 := by dsimp only [resetEvent]
@[simp] theorem resetEvent_port (cfg : Config) (s : State) : (resetEvent cfg s).port = s.port := by dsimp only [resetEvent]
@[simp] theorem resetEvent_answers (cfg : Config) (s : State) : (resetEvent cfg s).answers = s.answers := by dsimp only [resetEvent]

/-! ### Fields of the reset state (R41) -/

@[simp] theorem reset_keyed : State.reset.keyed = false := by dsimp only [State.reset]
@[simp] theorem reset_ctrReady : State.reset.ctrReady = false := by dsimp only [State.reset]
@[simp] theorem reset_lastErr : State.reset.lastErr = .ok := by dsimp only [State.reset]
@[simp] theorem reset_errSeen : State.reset.errSeen = false := by dsimp only [State.reset]
@[simp] theorem reset_ctr : State.reset.ctr = 0#64 := by dsimp only [State.reset]
@[simp] theorem reset_cur : State.reset.cur = 24#5 := by dsimp only [State.reset]
@[simp] theorem reset_mem : State.reset.mem = [] := by dsimp only [State.reset]
@[simp] theorem reset_draw : State.reset.draw = 0 := by dsimp only [State.reset]
@[simp] theorem reset_port : State.reset.port = [] := by dsimp only [State.reset]
@[simp] theorem reset_answers : State.reset.answers = [] := by dsimp only [State.reset]

end Sys2Proof.Machine
end

