-- ==== Sys2Proof/Laws/Memory.lean ====
section
/-!
SUPPORT. The laws of the buffers: a read after a write, the bytes a write leaves alone, and the canonical form, which
every memory operation keeps.
-/

namespace Sys2Proof.Machine

@[simp] theorem find_nil (a : Nat) : Memory.find [] a = none := rfl

/-- A read after a write gives the value written at that address and the old value at every other. -/
theorem find_put (m : Memory) (a x : Nat) (b : Byte) :
    Memory.find (Memory.put m a b) x = if x = a then some b else Memory.find m x := by
  induction m with
  | nil => simp [Memory.put, Memory.find]
  | cons c m ih =>
    obtain ⟨k, v⟩ := c
    simp only [Memory.put]
    split
    · simp [Memory.find]
    · split
      · next h => subst h; simp only [Memory.find]; split <;> rfl
      · next h1 h2 =>
        simp only [Memory.find, ih]
        split
        · next h => subst h; simp [Ne.symm h2]
        · rfl

/-- An address that a write leaves in the list was there before, or is the one written. -/
theorem mem_put {m : Memory} {a : Nat} {b : Byte} {c : Host.Cell} (h : c ∈ Memory.put m a b) : c ∈ m ∨ c = (a, b) := by
  induction m with
  | nil => simpa [Memory.put] using h
  | cons d m ih =>
    simp only [Memory.put] at h
    split at h
    · rcases List.mem_cons.1 h with h | h
      · exact .inr h
      · exact .inl h
    · split at h
      · rcases List.mem_cons.1 h with h | h
        · exact .inr h
        · exact .inl (List.mem_cons_of_mem _ h)
      · rcases List.mem_cons.1 h with h | h
        · exact .inl (h ▸ List.mem_cons_self ..)
        · exact (ih h).imp (List.mem_cons_of_mem _) id

/-- A write keeps the canonical form. -/
theorem put_wf {m : Memory} (h : Memory.wf m) (a : Nat) (b : Byte) : Memory.wf (Memory.put m a b) := by
  induction m with
  | nil => simp [Memory.put, Memory.wf]
  | cons c m ih =>
    obtain ⟨hc, hm⟩ := List.pairwise_cons.1 h
    simp only [Memory.put]
    split
    · next hlt =>
      refine List.pairwise_cons.2 ⟨fun d hd => ?_, h⟩
      rcases List.mem_cons.1 hd with rfl | hd
      · exact hlt
      · exact Nat.lt_trans hlt (hc d hd)
    · split
      · next heq => exact List.pairwise_cons.2 ⟨fun d hd => heq ▸ hc d hd, hm⟩
      · next h1 h2 =>
        refine List.pairwise_cons.2 ⟨fun d hd => ?_, ih hm⟩
        rcases mem_put hd with hd | rfl
        · exact hc d hd
        · simp only; omega

/-- A reset redraws values only: the addresses stay, so the canonical form does. -/
theorem redraw_wf {m : Memory} (h : Memory.wf m) (cfg : Config) (n : Nat) : Memory.wf (Memory.redraw cfg n m) := by
  simpa [Memory.wf, Memory.redraw, List.pairwise_map] using h

theorem mem_redraw {m : Memory} {cfg : Config} {n : Nat} {c : Host.Cell} (h : c ∈ Memory.redraw cfg n m) :
    ∃ d ∈ m, d.1 = c.1 := by
  obtain ⟨d, hd, rfl⟩ := List.mem_map.1 h
  exact ⟨d, hd, rfl⟩

/-! ### Reading the state's bytes -/

/-- A byte read depends on the buffers and the reset number only. -/
theorem readByte_congr {cfg : Config} {s t : State} (hm : t.mem = s.mem) (hd : t.draw = s.draw) (a : Nat) :
    readByte cfg t a = readByte cfg s a := by
  simp [readByte, hm, hd]

/-- The key operand depends on the buffers and the reset number only (R83). -/
theorem keyOperand_congr {cfg : Config} {s t : State} (hm : t.mem = s.mem) (hd : t.draw = s.draw) (klen : Nat) :
    keyOperand cfg klen t = keyOperand cfg klen s :=
  List.map_congr_left fun _ _ => readByte_congr hm hd _

/-- The counter operand depends on the buffers and the reset number only (R83). -/
theorem seekOperand_congr {cfg : Config} {s t : State} (hm : t.mem = s.mem) (hd : t.draw = s.draw) (clen : Nat) :
    seekOperand cfg clen t = seekOperand cfg clen s :=
  List.map_congr_left fun _ _ => readByte_congr hm hd _

@[simp] theorem readByte_succeed (cfg : Config) (s : State) (a : Nat) : readByte cfg (succeed s) a = readByte cfg s a := rfl
@[simp] theorem readByte_raise (cfg : Config) (e : ErrCode) (s : State) (a : Nat) :
    readByte cfg (raise e s) a = readByte cfg s a := rfl
@[simp] theorem readByte_keySetup (cfg : Config) (klen : Nat) (s : State) (a : Nat) :
    readByte cfg (keySetup cfg klen s) a = readByte cfg s a := by dsimp only [readByte, keySetup]
@[simp] theorem readByte_refill (cfg : Config) (s : State) (a : Nat) : readByte cfg (refill cfg s) a = readByte cfg s a := by
  dsimp only [readByte, refill]

/-- A read after a byte write (R54). -/
theorem readByte_writeByte (cfg : Config) (s : State) (a x : Nat) (b : Byte) :
    readByte cfg (writeByte a b s) x = if x = a then b else readByte cfg s x := by
  simp only [readByte, writeByte_mem, writeByte_draw, find_put]
  split <;> rfl

/-- Writing a run of bytes changes the buffers only. -/
theorem writeBytes_eq (a : Nat) (bs : List Byte) (s : State) :
    writeBytes a bs s = { s with mem := (writeBytes a bs s).mem } := by
  induction bs generalizing a s with
  | nil => rfl
  | cons b bs ih => rw [writeBytes, ih]; rfl

@[simp] theorem writeBytes_draw (a : Nat) (bs : List Byte) (s : State) : (writeBytes a bs s).draw = s.draw := by
  rw [writeBytes_eq]

/-- A read after a run of byte writes: byte `x - a` of the run inside it, the old byte outside. -/
theorem readByte_writeBytes (cfg : Config) (a : Nat) (bs : List Byte) (s : State) (x : Nat) :
    readByte cfg (writeBytes a bs s) x =
      if h : a ≤ x ∧ x - a < bs.length then bs[x - a]'h.2 else readByte cfg s x := by
  induction bs generalizing a s with
  | nil => simp [writeBytes]
  | cons b bs ih =>
    rw [writeBytes, ih, readByte_writeByte]
    rcases Nat.lt_trichotomy x a with h | h | h
    · have h1 : ¬ (a + 1 ≤ x) := by omega
      have h2 : ¬ (a ≤ x) := by omega
      simp [h1, h2, Nat.ne_of_lt h]
    · subst h
      have h1 : ¬ (x + 1 ≤ x) := by omega
      simp [h1]
    · have h1 : a + 1 ≤ x := h
      have h2 : a ≤ x := by omega
      have h3 : x - a = (x - (a + 1)) + 1 := by omega
      by_cases hl : x - (a + 1) < bs.length
      · simp [h1, h2, hl, h3]
      · have hl' : ¬ x - a < bs.length + 1 := by omega
        simp [hl, hl', Nat.ne_of_gt h]

theorem writeBytes_wf {s : State} (h : Memory.wf s.mem) (a : Nat) (bs : List Byte) : Memory.wf (writeBytes a bs s).mem := by
  induction bs generalizing a s with
  | nil => exact h
  | cons b bs ih => exact ih (put_wf h a b) (a + 1)

theorem mem_writeBytes {s : State} {a : Nat} {bs : List Byte} {c : Host.Cell} (h : c ∈ (writeBytes a bs s).mem) :
    c ∈ s.mem ∨ (a ≤ c.1 ∧ c.1 - a < bs.length) := by
  induction bs generalizing a s with
  | nil => exact .inl h
  | cons b bs ih =>
    rcases ih h with h | ⟨h1, h2⟩
    · rcases mem_put h with h | rfl
      · exact .inl h
      · exact .inr ⟨Nat.le_refl _, by simp⟩
    · exact .inr ⟨by omega, by simp only [List.length_cons]; omega⟩

end Sys2Proof.Machine
end

