-- ==== Sys2Proof/Laws/Keystream.lean ====
section
/-!
SUPPORT. What taking a keystream byte, processing a byte and processing a run of bytes can do (spec 43_ctr_mode.md R162
to R164).
-/

namespace Sys2Proof.Machine

/-- Taking a keystream byte (R163): inside a block it is the byte at the cursor; otherwise the unit refills first. -/
theorem takeKeystream_cases (cfg : Config) (s : State) :
    (∃ h : s.cur.toNat < 24, takeKeystream cfg s = (s.ks[s.cur.toNat], { s with cur := s.cur + 1#5 })) ∨
    (24 ≤ s.cur.toNat ∧ takeKeystream cfg s = ((refill cfg s).ks[0], { refill cfg s with cur := 1#5 })) := by
  unfold takeKeystream
  split
  · next h => exact .inl ⟨h, rfl⟩
  · next h => exact .inr ⟨Nat.le_of_not_lt h, rfl⟩

/-! ### Taking a keystream byte leaves everything but `KS`, `CTR` and `CUR` -/

@[simp] theorem takeKeystream_keys (cfg : Config) (s : State) : (takeKeystream cfg s).2.keys = s.keys := by
  unfold takeKeystream; split <;> rfl
@[simp] theorem takeKeystream_keyed (cfg : Config) (s : State) : (takeKeystream cfg s).2.keyed = s.keyed := by
  unfold takeKeystream; split <;> rfl
@[simp] theorem takeKeystream_nonce (cfg : Config) (s : State) : (takeKeystream cfg s).2.nonce = s.nonce := by
  unfold takeKeystream; split <;> rfl
@[simp] theorem takeKeystream_ctrReady (cfg : Config) (s : State) : (takeKeystream cfg s).2.ctrReady = s.ctrReady := by
  unfold takeKeystream; split <;> rfl
@[simp] theorem takeKeystream_lastErr (cfg : Config) (s : State) : (takeKeystream cfg s).2.lastErr = s.lastErr := by
  unfold takeKeystream; split <;> rfl
@[simp] theorem takeKeystream_errSeen (cfg : Config) (s : State) : (takeKeystream cfg s).2.errSeen = s.errSeen := by
  unfold takeKeystream; split <;> rfl
@[simp] theorem takeKeystream_draw (cfg : Config) (s : State) : (takeKeystream cfg s).2.draw = s.draw := by
  unfold takeKeystream; split <;> rfl
@[simp] theorem takeKeystream_port (cfg : Config) (s : State) : (takeKeystream cfg s).2.port = s.port := by
  unfold takeKeystream; split <;> rfl
@[simp] theorem takeKeystream_answers (cfg : Config) (s : State) : (takeKeystream cfg s).2.answers = s.answers := by
  unfold takeKeystream; split <;> rfl
@[simp] theorem takeKeystream_mem (cfg : Config) (s : State) : (takeKeystream cfg s).2.mem = s.mem := by
  unfold takeKeystream; split <;> rfl

/-- The byte taken and the new `KS`, `CTR`, `CUR` depend on the KeySet, the nonce and the old `KS`, `CTR`, `CUR` only. -/
theorem takeKeystream_congr {cfg : Config} {s t : State} (hk : t.keys = s.keys) (hn : t.nonce = s.nonce) (hc : t.ctr = s.ctr)
    (hks : t.ks = s.ks) (hcur : t.cur = s.cur) :
    (takeKeystream cfg t).1 = (takeKeystream cfg s).1 ∧ (takeKeystream cfg t).2.ks = (takeKeystream cfg s).2.ks ∧
      (takeKeystream cfg t).2.ctr = (takeKeystream cfg s).2.ctr ∧ (takeKeystream cfg t).2.cur = (takeKeystream cfg s).2.cur := by
  simp only [takeKeystream, refill, hk, hn, hc, hks, hcur]
  split <;> simp

/-- The cursor after a byte is in 1..24 (R163). -/
theorem takeKeystream_cur (cfg : Config) (s : State) : (takeKeystream cfg s).2.cur.toNat ≤ 24 := by
  rcases takeKeystream_cases cfg s with ⟨h, e⟩ | ⟨h, e⟩ <;> rw [e]
  · simp only [BitVec.toNat_add]
    exact Nat.le_trans (Nat.mod_le _ _) (by simpa using h)
  · simp

/-! ### Processing a byte leaves everything but `DBUF`, `KS`, `CTR` and `CUR` -/

@[simp] theorem xorByte_keys (cfg : Config) (i : Nat) (s : State) : (xorByte cfg i s).keys = s.keys := by simp [xorByte]
@[simp] theorem xorByte_keyed (cfg : Config) (i : Nat) (s : State) : (xorByte cfg i s).keyed = s.keyed := by simp [xorByte]
@[simp] theorem xorByte_nonce (cfg : Config) (i : Nat) (s : State) : (xorByte cfg i s).nonce = s.nonce := by simp [xorByte]
@[simp] theorem xorByte_ctrReady (cfg : Config) (i : Nat) (s : State) : (xorByte cfg i s).ctrReady = s.ctrReady := by simp [xorByte]
@[simp] theorem xorByte_lastErr (cfg : Config) (i : Nat) (s : State) : (xorByte cfg i s).lastErr = s.lastErr := by simp [xorByte]
@[simp] theorem xorByte_errSeen (cfg : Config) (i : Nat) (s : State) : (xorByte cfg i s).errSeen = s.errSeen := by simp [xorByte]
@[simp] theorem xorByte_draw (cfg : Config) (i : Nat) (s : State) : (xorByte cfg i s).draw = s.draw := by simp [xorByte]
@[simp] theorem xorByte_port (cfg : Config) (i : Nat) (s : State) : (xorByte cfg i s).port = s.port := by simp [xorByte]
@[simp] theorem xorByte_answers (cfg : Config) (i : Nat) (s : State) : (xorByte cfg i s).answers = s.answers := by simp [xorByte]
@[simp] theorem xorByte_ks (cfg : Config) (i : Nat) (s : State) : (xorByte cfg i s).ks = (takeKeystream cfg s).2.ks := rfl
@[simp] theorem xorByte_ctr (cfg : Config) (i : Nat) (s : State) : (xorByte cfg i s).ctr = (takeKeystream cfg s).2.ctr := rfl
@[simp] theorem xorByte_cur (cfg : Config) (i : Nat) (s : State) : (xorByte cfg i s).cur = (takeKeystream cfg s).2.cur := rfl

/-- A read after processing byte `i`. -/
theorem readByte_xorByte (cfg : Config) (i : Nat) (s : State) (x : Nat) :
    readByte cfg (xorByte cfg i s) x =
      if x = Buffer.dbuf.addr i then readByte cfg s x ^^^ (takeKeystream cfg s).1 else readByte cfg s x := by
  have h : readByte cfg (takeKeystream cfg s).2 x = readByte cfg s x := readByte_congr (by simp) (by simp) x
  rw [xorByte, readByte_writeByte, h]
  split
  · next e => rw [e]; rfl
  · rfl

/-! ### Processing a run of bytes leaves everything but `DBUF`, `KS`, `CTR` and `CUR` -/

@[simp] theorem ctrXor_keys (cfg : Config) (n : Nat) (s : State) : (ctrXor cfg n s).keys = s.keys := by
  induction n with
  | zero => rfl
  | succ n ih => simp [ctrXor, ih]
@[simp] theorem ctrXor_keyed (cfg : Config) (n : Nat) (s : State) : (ctrXor cfg n s).keyed = s.keyed := by
  induction n with
  | zero => rfl
  | succ n ih => simp [ctrXor, ih]
@[simp] theorem ctrXor_nonce (cfg : Config) (n : Nat) (s : State) : (ctrXor cfg n s).nonce = s.nonce := by
  induction n with
  | zero => rfl
  | succ n ih => simp [ctrXor, ih]
@[simp] theorem ctrXor_ctrReady (cfg : Config) (n : Nat) (s : State) : (ctrXor cfg n s).ctrReady = s.ctrReady := by
  induction n with
  | zero => rfl
  | succ n ih => simp [ctrXor, ih]
@[simp] theorem ctrXor_lastErr (cfg : Config) (n : Nat) (s : State) : (ctrXor cfg n s).lastErr = s.lastErr := by
  induction n with
  | zero => rfl
  | succ n ih => simp [ctrXor, ih]
@[simp] theorem ctrXor_errSeen (cfg : Config) (n : Nat) (s : State) : (ctrXor cfg n s).errSeen = s.errSeen := by
  induction n with
  | zero => rfl
  | succ n ih => simp [ctrXor, ih]
@[simp] theorem ctrXor_draw (cfg : Config) (n : Nat) (s : State) : (ctrXor cfg n s).draw = s.draw := by
  induction n with
  | zero => rfl
  | succ n ih => simp [ctrXor, ih]
@[simp] theorem ctrXor_port (cfg : Config) (n : Nat) (s : State) : (ctrXor cfg n s).port = s.port := by
  induction n with
  | zero => rfl
  | succ n ih => simp [ctrXor, ih]
@[simp] theorem ctrXor_answers (cfg : Config) (n : Nat) (s : State) : (ctrXor cfg n s).answers = s.answers := by
  induction n with
  | zero => rfl
  | succ n ih => simp [ctrXor, ih]

/-- A byte outside `DBUF[0 .. n - 1]` reads as before (R164). -/
theorem readByte_ctrXor_outside (cfg : Config) (n : Nat) (s : State) {x : Nat}
    (h : x < Buffer.dbuf.addr 0 ∨ Buffer.dbuf.addr n ≤ x) : readByte cfg (ctrXor cfg n s) x = readByte cfg s x := by
  induction n with
  | zero => rfl
  | succ n ih =>
    have hx : x ≠ Buffer.dbuf.addr n := by simp only [Buffer.addr, Buffer.base] at *; omega
    rw [ctrXor, readByte_xorByte, if_neg hx]
    exact ih (by simp only [Buffer.addr] at *; omega)

/-- Byte `DBUF[k]` after a run is XORed with the byte taken at its turn, in the state the bytes before it left. -/
theorem readByte_ctrXor_inside (cfg : Config) (n : Nat) (s : State) {k : Nat} (h : k < n) :
    readByte cfg (ctrXor cfg n s) (Buffer.dbuf.addr k) =
      readByte cfg s (Buffer.dbuf.addr k) ^^^ (takeKeystream cfg (ctrXor cfg k s)).1 := by
  induction n with
  | zero => omega
  | succ n ih =>
    rw [ctrXor, readByte_xorByte]
    rcases Nat.lt_or_ge k n with hk | hk
    · rw [if_neg (by simp only [Buffer.addr, Buffer.base]; omega), ih hk]
    · have : k = n := by omega
      subst this
      rw [if_pos rfl, readByte_ctrXor_outside cfg k s (.inr (Nat.le_refl _))]

theorem ctrXor_wf {s : State} (cfg : Config) (n : Nat) (h : Memory.wf s.mem) : Memory.wf (ctrXor cfg n s).mem := by
  induction n with
  | zero => exact h
  | succ n ih =>
    rw [ctrXor, xorByte, writeByte_mem, takeKeystream_mem]
    exact put_wf ih _ _

theorem mem_ctrXor {s : State} {cfg : Config} {n : Nat} {c : Host.Cell} (h : c ∈ (ctrXor cfg n s).mem) :
    c ∈ s.mem ∨ ∃ i, i < n ∧ c.1 = Buffer.dbuf.addr i := by
  induction n with
  | zero => exact .inl h
  | succ n ih =>
    rw [ctrXor, xorByte, writeByte_mem, takeKeystream_mem] at h
    rcases mem_put h with h | rfl
    · exact (ih h).imp id fun ⟨i, hi, e⟩ => ⟨i, by omega, e⟩
    · exact .inr ⟨n, by omega, rfl⟩

theorem ctrXor_cur_le {s : State} (cfg : Config) (n : Nat) (h : s.cur.toNat ≤ 24) : (ctrXor cfg n s).cur.toNat ≤ 24 := by
  cases n with
  | zero => exact h
  | succ n => rw [ctrXor, xorByte_cur]; exact takeKeystream_cur _ _

end Sys2Proof.Machine
end

