-- ==== Sys2Proof/Laws/Commands.lean ====
section
/-!
SUPPORT. What each command can do, said once: its error cases in the order of spec 60_exceptions.md R195, then its
effect. Later proofs cite these and do not unfold a command.
-/

namespace Sys2Proof.Machine

@[simp] theorem exec_ciphInit (n : Nat) (s : State) : exec (.ciphInit n) s = .next (ciphInit Config.built n s) := rfl
@[simp] theorem exec_ciphEnc (n : Nat) (s : State) : exec (.ciphEnc n) s = .next (ciphEnc Config.built n s) := rfl
@[simp] theorem exec_ciphDec (n : Nat) (s : State) : exec (.ciphDec n) s = .next (ciphDec Config.built n s) := rfl
@[simp] theorem exec_ctrInit (n k : Nat) (s : State) : exec (.ctrInit n k) s = .next (ctrInit Config.built n k s) := rfl
@[simp] theorem exec_ctrEnc (n : Nat) (s : State) : exec (.ctrEnc n) s = .next (ctrEnc Config.built n s) := rfl
@[simp] theorem exec_ctrDec (n : Nat) (s : State) : exec (.ctrDec n) s = .next (ctrDec Config.built n s) := rfl
@[simp] theorem exec_ctrSeek (n : Nat) (s : State) : exec (.ctrSeek n) s = .next (ctrSeek Config.built n s) := rfl

/-- `DBUF_BYTES` is at least a block and at most what `LEN` can name (R10). -/
theorem dbufBytes_range (cfg : Config) : 24 ≤ cfg.dbufBytes ∧ cfg.dbufBytes ≤ 65535 := by
  have := cfg.dbufTail.isLt
  unfold Config.dbufBytes
  omega

/-- The outcomes of a block command (R148, R149, R195). -/
theorem blockCommand_cases (cfg : Config) (f : Config → KeySet → Vector Byte 24 → Vector Byte 24) (dlen : Nat) (s : State) :
    (s.keyed = false ∧ blockCommand cfg f dlen s = raise .notInitialised s) ∨
    (s.keyed = true ∧ dlen ≠ 24 ∧ blockCommand cfg f dlen s = raise .invalidLength s) ∨
    (s.keyed = true ∧ dlen = 24 ∧
      blockCommand cfg f dlen s = succeed (storeBlock (f cfg s.keys (blockOperand cfg s)) s)) := by
  unfold blockCommand
  cases hk : s.keyed <;> by_cases hd : dlen = 24 <;> simp [hd]

/-- The outcomes of CTR_INIT (R165). -/
theorem ctrInit_cases (cfg : Config) (klen nlen : Nat) (s : State) :
    (nlen ≠ 16 ∧ ctrInit cfg klen nlen s = raise .invalidLength s) ∨
    (nlen = 16 ∧ ctrInit cfg klen nlen s =
      { s with keys := generateRoundKeys cfg (keyOperand cfg klen s), keyed := true, nonce := nonceOperand cfg s,
               ctr := 0#64, cur := 24#5, ctrReady := true, lastErr := .ok }) := by
  by_cases h : nlen = 16
  · refine .inr ⟨h, ?_⟩
    have hk : keyOperand cfg klen { s with nonce := nonceOperand cfg s, ctr := 0#64, cur := 24#5 } = keyOperand cfg klen s :=
      keyOperand_congr (s := s) (by dsimp only) (by dsimp only) klen
    simp only [ctrInit, h, ne_eq, not_true, if_false, succeed, keySetup, hk]
  · exact .inl ⟨h, by simp [ctrInit, h]⟩

/-- The outcomes of a stream command (R166, R167, R195). -/
theorem streamCommand_cases (cfg : Config) (dlen : Nat) (s : State) :
    (s.ctrReady = false ∧ streamCommand cfg dlen s = raise .notInitialised s) ∨
    (s.ctrReady = true ∧ cfg.dbufBytes < dlen ∧ streamCommand cfg dlen s = raise .invalidLength s) ∨
    (s.ctrReady = true ∧ dlen ≤ cfg.dbufBytes ∧ streamCommand cfg dlen s = succeed (ctrXor cfg dlen s)) := by
  unfold streamCommand
  cases hr : s.ctrReady <;> by_cases hd : dlen ≤ cfg.dbufBytes <;> simp [hd, Nat.lt_of_not_le]

/-- The outcomes of CTR_SEEK (R169, R195). -/
theorem ctrSeek_cases (cfg : Config) (clen : Nat) (s : State) :
    (s.ctrReady = false ∧ ctrSeek cfg clen s = raise .notInitialised s) ∨
    (s.ctrReady = true ∧ 8 < clen ∧ ctrSeek cfg clen s = raise .invalidLength s) ∨
    (s.ctrReady = true ∧ clen ≤ 8 ∧
      ctrSeek cfg clen s = succeed { s with ctr := counterOfBytes (seekOperand cfg clen s), cur := 24#5 }) := by
  unfold ctrSeek
  cases hr : s.ctrReady <;> by_cases hd : clen ≤ 8 <;> simp [hd, Nat.lt_of_not_le]

/-- Storing a block changes the buffers only. -/
theorem storeBlock_eq (b : Vector Byte 24) (s : State) : storeBlock b s = { s with mem := (storeBlock b s).mem } :=
  writeBytes_eq _ _ _

/-- Byte `k` of `DBUF` after storing a block is byte `k` of the block (R37). -/
theorem readByte_storeBlock_inside (cfg : Config) (b : Vector Byte 24) (s : State) {k : Nat} (h : k < 24) :
    readByte cfg (storeBlock b s) (Buffer.dbuf.addr k) = b[k] := by
  have e : Buffer.dbuf.addr k - Buffer.dbuf.addr 0 = k := by simp [Buffer.addr]
  have l : Buffer.dbuf.addr 0 ≤ Buffer.dbuf.addr k := by simp [Buffer.addr]
  rw [storeBlock, readByte_writeBytes, dif_pos ⟨l, by rw [e]; simpa using h⟩]
  simp only [e, Vector.getElem_toList]

/-- A byte outside `DBUF[0..23]` reads as before (R37). -/
theorem readByte_storeBlock_outside (cfg : Config) (b : Vector Byte 24) (s : State) {x : Nat}
    (h : x < Buffer.dbuf.addr 0 ∨ Buffer.dbuf.addr 24 ≤ x) : readByte cfg (storeBlock b s) x = readByte cfg s x := by
  rw [storeBlock, readByte_writeBytes, dif_neg]
  simp only [Vector.length_toList, Buffer.addr] at *
  omega

end Sys2Proof.Machine
end

