-- ==== Sys2Proof/Laws/KeySchedule.lean ====
section
/-!
SUPPORT. What the key schedule's shared operations can do (spec 41_key_schedule.md R123 to R126): `generateRoundKeys` is
irreducible, and these lemmas are how a proof reads it.
-/

namespace Sys2Proof.Machine

/-- Masking key `j` of round `r` (R126). -/
theorem generateRoundKeys_km (cfg : Config) (key : List Byte) (r j : Nat) (hj : j < 6) (h : 6 * r + j < 72) :
    (generateRoundKeys cfg key).km[6 * r + j] = (scheduleBlock cfg (packKey key) r)[11 - 2 * j] := by
  have h1 : (6 * r + j) / 6 = r := by omega
  have h2 : (6 * r + j) % 6 = j := by omega
  unfold generateRoundKeys
  simp only [Vector.getElem_ofFn, extractKm, h1, h2]

/-- Rotation key `j` of round `r` (R105, R126). -/
theorem generateRoundKeys_kr (cfg : Config) (key : List Byte) (r j : Nat) (hj : j < 6) (h : 6 * r + j < 72) :
    (generateRoundKeys cfg key).kr[6 * r + j] = (scheduleBlock cfg (packKey key) r)[2 * j].extractLsb' 0 5 := by
  have h1 : (6 * r + j) / 6 = r := by omega
  have h2 : (6 * r + j) % 6 = j := by omega
  unfold generateRoundKeys
  simp only [Vector.getElem_ofFn, extractKr, h1, h2]

/-- The KeySet depends on the packed key only (R124). -/
theorem generateRoundKeys_congr (cfg : Config) {a b : List Byte} (h : packKey a = packKey b) :
    generateRoundKeys cfg a = generateRoundKeys cfg b := by
  unfold generateRoundKeys; rw [h]

@[simp] theorem packKey_getElem (key : List Byte) (j : Nat) (h : j < 12) : (packKey key)[j] = packKeyWord key j := by
  simp only [packKey, Vector.getElem_ofFn]

/-- A word of the key that lies wholly inside it (R124). -/
theorem packKeyWord_inside {key : List Byte} {j : Nat} (h : 4 * j + 3 < key.length) :
    packKeyWord key j = be32 key[4 * j] key[4 * j + 1] key[4 * j + 2] key[4 * j + 3] := dif_pos h

/-- A word that runs past the end of the key is zero as a whole (R124). -/
theorem packKeyWord_outside {key : List Byte} {j : Nat} (h : key.length ≤ 4 * j + 3) : packKeyWord key j = 0#32 :=
  dif_neg (Nat.not_lt.2 h)

/-- A statement of DODECAD changes its target word only (R123). -/
theorem dodecadStep_getElem (cfg : Config) (M : Nat → Word) (R : Nat → Rot) (off : Nat) (w : KeyBlock) (row : DodecadRow)
    (i : Nat) (h : i < 12) :
    (dodecadStep cfg M R off w row)[i] =
      if row.tgt.val = i then w[row.tgt] ^^^ roundF cfg row.fn w[row.src] (M (off + row.k)) (R (off + row.k)) else w[i] := by
  simp only [dodecadStep, Vector.getElem_set]

/-- Dodecads in sequence compose, the constants running on (R125). -/
theorem dodecads_append (cfg : Config) (m a b : Nat) (w : KeyBlock) :
    dodecads cfg (m + a) b (dodecads cfg m a w) = dodecads cfg m (a + b) w := by
  induction a generalizing m w with
  | zero => simp [dodecads]
  | succ a ih =>
    rw [dodecads, Nat.add_right_comm a 1 b, dodecads, ← ih, show m + (a + 1) = m + 1 + a by omega]

end Sys2Proof.Machine
end

