-- ==== Sys2Proof/Laws/PerInstr.lean ====
section
/-!
SUPPORT. Facts about the commands as syntax, one lemma per constructor of Instr.
-/

namespace Sys2Proof.Laws.EncodesLowByte

/-- The low byte of the command word is `RSV = 0` and the command's `OP` (spec 30_encoding.md R80, R82, R86). -/
def Statement (i : Instr) : Prop := (encode i).extractLsb' 0 8 = (opcodeOf i.mnemonic).setWidth 8

/-- The low byte of a word built of the four fields. -/
theorem lowByte (a : BitVec 8) (b : BitVec 16) (c : BitVec 4) :
    (a ++ b ++ 0#4 ++ c).extractLsb' 0 8 = c.setWidth 8 := by
  ext i hi
  rw [BitVec.getElem_extractLsb', BitVec.getLsbD_append, BitVec.getLsbD_append, BitVec.getElem_setWidth, Nat.zero_add]
  by_cases h : i < 4
  · simp [h]
  · have h2 : i - 4 < 4 := by omega
    simp [h, h2, BitVec.getLsbD_of_ge c i (by omega)]

theorem ciphInit (klen : Nat) : Statement (.ciphInit klen) := lowByte ..
theorem ciphEnc (dlen : Nat) : Statement (.ciphEnc dlen) := lowByte ..
theorem ciphDec (dlen : Nat) : Statement (.ciphDec dlen) := lowByte ..
theorem ctrInit (klen nlen : Nat) : Statement (.ctrInit klen nlen) := lowByte ..
theorem ctrEnc (dlen : Nat) : Statement (.ctrEnc dlen) := lowByte ..
theorem ctrDec (dlen : Nat) : Statement (.ctrDec dlen) := lowByte ..
theorem ctrSeek (clen : Nat) : Statement (.ctrSeek clen) := lowByte ..

end Sys2Proof.Laws.EncodesLowByte
end

