-- ==== Sys2Proof/Laws/Port.lean ====
section
/-!
SUPPORT. What a host access and a step can do, said once (spec 20_memory.md R54, R59).
-/

namespace Sys2Proof.Machine

/-- The addresses of a buffer are a range (R51). -/
theorem Buffer.holds_iff (cfg : Config) (b : Buffer) (a : Nat) :
    b.holds cfg a = true ↔ b.base ≤ a ∧ a < b.base + b.size cfg := by
  simp only [Buffer.holds, Bool.and_eq_true, decide_eq_true_eq]
  omega

/-- The map of R51 as ranges. -/
theorem bufferByteAt_iff (cfg : Config) (a : Nat) :
    bufferByteAt cfg a = true ↔
      (0x040 ≤ a ∧ a < 0x070) ∨ (0x070 ≤ a ∧ a < 0x080) ∨ (0x080 ≤ a ∧ a < 0x088) ∨
        (0x100 ≤ a ∧ a < 0x100 + cfg.dbufBytes) := by
  simp only [bufferByteAt, Bool.or_eq_true, Buffer.holds_iff, or_assoc]
  simp only [Buffer.base]
  simp only [Buffer.size]

/-- Every byte of `DBUF[0 .. n - 1]` is a buffer byte when `n` fits the buffer. -/
theorem bufferByteAt_dbuf {cfg : Config} {i : Nat} (h : i < cfg.dbufBytes) : bufferByteAt cfg (Buffer.dbuf.addr i) = true := by
  rw [bufferByteAt_iff]
  simp only [Buffer.addr, Buffer.base]
  omega

/-- What an answered read was (R59). -/
theorem memRead_ok {cfg : Config} {a n : Nat} {s : State} {v : Word} (h : memRead cfg a n s = .ok v) :
    (n = 4 ∧ a = cmdAddr ∧ v = 0#32) ∨ (n = 4 ∧ a = statusAddr ∧ v = status s) ∨
      (n = 1 ∧ bufferByteAt cfg a = true ∧ v = (readByte cfg s a).setWidth 32) := by
  unfold memRead at h
  split at h
  · next c => injection h with h; exact .inl ⟨c.1, c.2, h.symm⟩
  · split at h
    · next c => injection h with h; exact .inr (.inl ⟨c.1, c.2, h.symm⟩)
    · split at h
      · next c => injection h with h; exact .inr (.inr ⟨c.1, c.2, h.symm⟩)
      · cases h

/-- What a completed write was (R59). -/
theorem memWrite_next {cfg : Config} {ex : Instr → State → Result} {a n : Nat} {v : Word} {s t : State}
    (h : memWrite cfg ex a n v s = .next t) :
    (n = 4 ∧ a = cmdAddr ∧ execWord ex v s = .next t) ∨ (n = 4 ∧ a = statusAddr ∧ t = s) ∨
      (n = 1 ∧ bufferByteAt cfg a = true ∧ t = writeByte a (v.setWidth 8) s) := by
  unfold memWrite at h
  split at h
  · next c => exact .inl ⟨c.1, c.2, h⟩
  · split at h
    · next c => injection h with h; exact .inr (.inl ⟨c.1, c.2, h.symm⟩)
    · split at h
      · next c => injection h with h; exact .inr (.inr ⟨c.1, c.2, h.symm⟩)
      · cases h

/-- What a command word did: an illegal word raised, a command ran (R89). -/
theorem execWord_next {ex : Instr → State → Result} {c : Word} {s t : State} (h : execWord ex c s = .next t) :
    (∃ i, decode c = .command i ∧ ex i s = .next t) ∨ (∃ why, decode c = .illegal why ∧ t = raise .illegalCommand s) := by
  unfold execWord at h
  split at h
  · next i e => exact .inl ⟨i, e, h⟩
  · next why e => injection h with h; exact .inr ⟨why, e, h.symm⟩

/-- What a completed event did. -/
theorem portEvent_next {cfg : Config} {ex : Instr → State → Result} {e : HostEvent} {s t : State}
    (h : portEvent cfg ex e s = .next t) :
    (∃ a n v, e = .read a n ∧ memRead cfg a n s = .ok v ∧ t = { s with answers := v :: s.answers }) ∨
    (∃ a n v, e = .write a n v ∧ memWrite cfg ex a n v s = .next t) ∨ (e = .reset ∧ t = resetEvent cfg s) := by
  cases e with
  | read a n =>
    simp only [portEvent] at h
    split at h
    · next v e => injection h with h; exact .inl ⟨a, n, v, rfl, e, h.symm⟩
    · cases h
  | write a n v => exact .inr (.inl ⟨a, n, v, rfl, h⟩)
  | reset => injection h with h; exact .inr (.inr ⟨rfl, h.symm⟩)

/-- What a completed step did: nothing when the host has nothing pending, else the oldest pending event. -/
theorem step_next {s t : State} (h : step s = .next t) :
    (s.port = [] ∧ t = s) ∨
      ∃ e rest, s.port = e :: rest ∧ portEvent Config.built exec e { s with port := rest } = .next t := by
  unfold step servePort at h
  split at h
  · next e => injection h with h; exact .inl ⟨e, h.symm⟩
  · next e rest p => exact .inr ⟨e, rest, p, h⟩

/-- A step with an event pending is that event. -/
theorem step_cons {s : State} {e : HostEvent} {rest : List HostEvent} (h : s.port = e :: rest) :
    step s = portEvent Config.built exec e { s with port := rest } := by
  simp only [step, servePort, h]

end Sys2Proof.Machine
end

