-- ==== Sys2Proof/Laws/Run.lean ====
section
/-!
SUPPORT. A run of the machine as the host runs it, one step at a time.
-/

namespace Sys2Proof.Machine

theorem run_zero (s : State) : Host.Core.run Sys2Proof.core 0 s = .next s := rfl

/-- A run whose first step completes goes on from there. -/
theorem run_next (k : Nat) {s t : State} (h : step s = .next t) :
    Host.Core.run Sys2Proof.core (k + 1) s = Host.Core.run Sys2Proof.core k t := by
  have e := Host.Core.run.eq_2 Sys2Proof.core s k
  have h' : Sys2Proof.core.step s = .next t := h
  rw [e, h']

/-- A run that completes had a first step that did. -/
theorem run_succ {k : Nat} {s u : State} (h : Host.Core.run Sys2Proof.core (k + 1) s = .next u) :
    ∃ t, step s = .next t ∧ Host.Core.run Sys2Proof.core k t = .next u := by
  cases hs : step s with
  | next t => exact ⟨t, rfl, (run_next k hs).symm.trans h⟩
  | fault r => cases r
  | refused r =>
    have e := Host.Core.run.eq_2 Sys2Proof.core s k
    have h' : Sys2Proof.core.step s = .refused r := hs
    rw [e, h'] at h
    cases h

end Sys2Proof.Machine
end

