-- ==== Sys2Proof/Tests/Slice0.lean ====
section
/-!
SUPPORT. Tests of the model, and a witness for the hypotheses of each statement. Expected values come from the spec's
tables (30_encoding.md R88, 95_test_vectors.md V1 to V9, P2 to P4), computed there under the configurations below; they say
nothing of the production tables.
-/

open Sys2Proof Sys2Proof.Machine

namespace Sys2Proof.Tests

/-! ## Well-formedness: one ill-formed term for each check, and the largest lengths that pass -/

theorem test_wf_ciphInit_refuses : (Instr.ciphInit 65536).wellFormed = false := by decide
theorem test_wf_ciphEnc_refuses : (Instr.ciphEnc 65536).wellFormed = false := by decide
theorem test_wf_ciphDec_refuses : (Instr.ciphDec 65536).wellFormed = false := by decide
theorem test_wf_ctrInit_refuses_key : (Instr.ctrInit 65536 16).wellFormed = false := by decide
theorem test_wf_ctrInit_refuses_nonce : (Instr.ctrInit 48 256).wellFormed = false := by decide
theorem test_wf_ctrEnc_refuses : (Instr.ctrEnc 65536).wellFormed = false := by decide
theorem test_wf_ctrDec_refuses : (Instr.ctrDec 65536).wellFormed = false := by decide
theorem test_wf_ctrSeek_refuses : (Instr.ctrSeek 65536).wellFormed = false := by decide
theorem test_wf_accepts_the_largest :
    (Instr.ciphInit 65535).wellFormed = true ∧ (Instr.ctrInit 65535 255).wellFormed = true := by decide

/-! ## Decoding: words written out from R80, R82 and V9 (`OP` bits 3:0, `LEN` bits 23:8, `NLEN` bits 31:24) -/

theorem test_decode_ciphInit : decode 0b00000000_0000000000110000_0000_0001#32 = .command (.ciphInit 48) := by decide
theorem test_decode_ciphInit_longest : decode 0x00FFFF01#32 = .command (.ciphInit 65535) := by decide
theorem test_decode_ciphEnc : decode 0b00000000_0000000000011000_0000_0010#32 = .command (.ciphEnc 24) := by decide
theorem test_decode_ciphDec : decode 0b00000000_0000000000011000_0000_0011#32 = .command (.ciphDec 24) := by decide
theorem test_decode_ctrInit : decode 0b00010000_0000000000110000_0000_0100#32 = .command (.ctrInit 48 16) := by decide
theorem test_decode_ctrInit_short_nonce : decode 0x0F003004#32 = .command (.ctrInit 48 15) := by decide
theorem test_decode_ctrEnc : decode 0b00000000_0000000000011001_0000_0101#32 = .command (.ctrEnc 25) := by decide
theorem test_decode_ctrEnc_long : decode 0x00010105#32 = .command (.ctrEnc 257) := by decide
theorem test_decode_ctrDec : decode 0b00000000_0000000001100100_0000_0110#32 = .command (.ctrDec 100) := by decide
theorem test_decode_ctrSeek : decode 0b00000000_0000000000000010_0000_0111#32 = .command (.ctrSeek 2) := by decide
theorem test_decode_illegal :
    decode 0x00000000#32 = .illegal .reservedOpcode ∧ decode 0x00000018#32 = .illegal .reservedOpcode ∧
      decode 0x0000000F#32 = .illegal .reservedOpcode ∧ decode 0x00000012#32 = .illegal .reservedField ∧
      decode 0x10001802#32 = .illegal .strayNonceLength ∧ decode 0xFFFFFFFF#32 = .illegal .reservedOpcode := by decide
theorem test_decodeTableWord :
    decodeTableWord 32 0x10003004 = some (.ctrInit 48 16) ∧ decodeTableWord 32 0x00000012 = none ∧
      decodeTableWord 8 0x07 = some (.ctrSeek 0) := by decide
theorem test_encode :
    encode (.ciphInit 44) = 0x00002C01#32 ∧ encode (.ctrInit 48 16) = 0x10003004#32 ∧
      encode (.ctrEnc 256) = 0x00010005#32 ∧ encode (.ctrSeek 9) = 0x00000907#32 := by decide

/-! ## Test configurations (95_test_vectors.md section 1) -/

/-- The multipliers `K_1 .. K_4` of `SBOX_T`. -/
def factor : STable → Nat
  | .s1 => 0x9E3779B1
  | .s2 => 0x85EBCA6B
  | .s3 => 0xC2B2AE35
  | .s4 => 0x27D4EB2F

/-- `SBOX_T`, `Q = 2`, the default parameters, `DBUF_BYTES = 256`. -/
def cfgT : Config :=
  { (default : Config) with
    sbox := fun t x => BitVec.ofNat 32 ((x.toNat + 1) * factor t), dodecadCount := 2, fSubOrder := .dMinusKm,
    fGrouping := .leftToRight, dbufTail := 232 }

/-- `cfgT` with the other order and grouping (the tag `KC`). -/
def cfgKC : Config := { cfgT with fSubOrder := .kmMinusD, fGrouping := .cPrecedence }

/-- `SBOX_ZERO`. -/
def cfgZero : Config := { cfgT with sbox := fun _ _ => 0#32 }

/-- The `n` bytes that spell `v`, first byte most significant. -/
def bytesOf (n v : Nat) : List Byte := (List.range n).map fun i => BitVec.ofNat 8 (v / 256 ^ (n - 1 - i))

/-- `n` bytes rising from `a`. -/
def rising (a n : Nat) : List Byte := (List.range n).map fun i => BitVec.ofNat 8 (a + i)

/-- `K1`. -/
def key1 : List Byte := rising 0 48

/-- The first `n` bytes of DBUF. -/
def dbuf (cfg : Config) (n : Nat) (s : State) : List Byte := (List.range n).map (bufferByte cfg s .dbuf)

/-- After reset, with `K1` in KEYBUF, `N1` in NONCEBUF and `B1` in DBUF. -/
def loaded : State :=
  writeBytes 0x100 (rising 0 24) (writeBytes 0x070 (rising 0xA0 16) (writeBytes 0x040 key1 State.reset))

/-- `loaded` after KeySetup of `K1`: the KeySet of the vectors. -/
def keyedState : State := { loaded with keys := generateRoundKeys cfgT key1, keyed := true }

/-- `loaded` after CTR_INIT with `K1` and `N1`. -/
def streaming : State :=
  { keyedState with nonce := Vector.ofFn fun i => BitVec.ofNat 8 (0xA0 + i.val), ctr := 0#64, cur := 24#5, ctrReady := true }

/-! ## The functions of the cipher -/

/-- V1. -/
theorem test_rotl32 : rotl32 0x80000001#32 31#5 = 0xC0000000#32 ∧ rotl32 0x12345678#32 4#5 = 0x23456781#32 := by decide
/-- V3, `SBOX_T`, the row `(0x01234567, 0x89ABCDEF, 7)`, DL. -/
theorem test_round_functions :
    [RoundFn.f1, .f2, .f3, .f4, .f5, .f6].map (fun f => roundF cfgT f 0x01234567#32 0x89ABCDEF#32 7#5) =
      [0x8BBDB584#32, 0xBAEC518C#32, 0xDE257AAD#32, 0xD1997985#32, 0xA99BA880#32, 0xFF3B04E8#32] := by decide +kernel
/-- V3, the same row, KC. -/
theorem test_round_functions_other_reading :
    [RoundFn.f1, .f2, .f3, .f4, .f5, .f6].map (fun f => roundF cfgKC f 0x01234567#32 0x89ABCDEF#32 7#5) =
      [0x8BBDB584#32, 0xBAEC518C#32, 0x0044CB12#32, 0x7A43D300#32, 0xA12B084C#32, 0xFF3B04E8#32] := by decide +kernel
/-- V6: `HEXAD(x, 66)`. -/
theorem test_hexad :
    hexad cfgT (generateRoundKeys cfgT key1) 66
        ⟨0x00010203#32, 0x04050607#32, 0x08090A0B#32, 0x0C0D0E0F#32, 0x10111213#32, 0x14151617#32⟩ =
      ⟨0xC838ED11#32, 0x24978CBB#32, 0x7EF06A16#32, 0xB2A0ACAD#32, 0x813F6B1D#32, 0x47D85670#32⟩ := by decide +kernel
/-- V8: `KeystreamBlock(2^64 − 1)`. -/
theorem test_keystreamBlock :
    (keystreamBlock cfgT streaming.keys streaming.nonce (BitVec.allOnes 64)).toList =
      bytesOf 24 0x5CDF6C6E545AEBED472A50276A32CE458ACBA7E13C5402E8 := by decide +kernel

/-! ## The commands, under the test configuration -/

/-- V5: the complete KeySet of `K1`, its corners. -/
theorem test_ciphInit :
    (ciphInit cfgT 48 loaded).keys.km[0] = 0x26010E66#32 ∧ (ciphInit cfgT 48 loaded).keys.km[71] = 0x0F0806A6#32 ∧
      (ciphInit cfgT 48 loaded).keys.kr[66] = 6#5 ∧ (ciphInit cfgT 48 loaded).keyed = true := by decide +kernel
/-- V5: a 46-byte key gives the KeySet of `K44`. -/
theorem test_ciphInit_short_key :
    (ciphInit cfgT 46 loaded).keys.km[0] = 0x595CA5BA#32 ∧ (ciphInit cfgT 46 loaded).keys.kr[71] = 12#5 := by decide +kernel
/-- V7, P1. -/
theorem test_ciphEnc :
    dbuf cfgT 24 (ciphEnc cfgT 24 keyedState) = bytesOf 24 0x8FA5C25499D35134FBED985CF2145BAB9F0CE1F9B7D82BC9 := by
  decide +kernel
/-- P4: not keyed and a bad length: NOT_INITIALISED wins. -/
theorem test_ciphEnc_error : status (ciphEnc cfgT 23 loaded) = 0x00000014#32 := by decide +kernel
/-- V7. -/
theorem test_ciphDec :
    dbuf cfgT 24 (ciphDec cfgT 24 keyedState) = bytesOf 24 0x168933D25787E7BA66B29F37D24C1E48DE8301DF0B5B5546 := by
  decide +kernel
/-- P4: keyed, a bad length. -/
theorem test_ciphDec_error : status (ciphDec cfgT 25 keyedState) = 0x00000025#32 := by decide +kernel
/-- P2. -/
theorem test_ctrInit :
    status (ctrInit cfgT 48 16 loaded) = 0x00000003#32 ∧ (ctrInit cfgT 48 16 loaded).nonce[15] = 0xAF#8 ∧
      (ctrInit cfgT 48 16 loaded).ctr = 0#64 ∧ (ctrInit cfgT 48 16 loaded).cur = 24#5 ∧
      (ctrInit cfgT 48 16 loaded).keys.km[0] = 0x26010E66#32 := by decide +kernel
/-- P4: a bad nonce length; KEYED stays 0. -/
theorem test_ctrInit_error : status (ctrInit cfgT 48 15 loaded) = 0x00000024#32 := by decide +kernel
/-- P2: 25 bytes of `PT` across a block boundary. -/
theorem test_ctrEnc :
    dbuf cfgT 25 (ctrEnc cfgT 25 (writeBytes 0x100 (rising 0x30 25) streaming)) =
        bytesOf 25 0x95DADD54C670E24B216AD75C2C66C7F0D71DE2F43626B50E9F ∧
      (ctrEnc cfgT 25 streaming).ctr = 2#64 ∧ (ctrEnc cfgT 25 streaming).cur = 1#5 := by decide +kernel
/-- P4: longer than DBUF. -/
theorem test_ctrEnc_error : status (ctrEnc cfgT 257 streaming) = 0x00000027#32 := by decide +kernel
/-- P3: the counter wraps; CTR_DEC is CTR_ENC. -/
theorem test_ctrDec :
    dbuf cfgT 25 (ctrDec cfgT 25 (writeBytes 0x100 (List.replicate 25 0#8) { streaming with ctr := BitVec.allOnes 64 })) =
      bytesOf 25 0x5CDF6C6E545AEBED472A50276A32CE458ACBA7E13C5402E8A5 := by decide +kernel
/-- P3: a two-byte counter. -/
theorem test_ctrSeek :
    (ctrSeek cfgT 2 (writeBytes 0x080 [1#8, 2#8] streaming)).ctr = 0x102#64 ∧
      (ctrSeek cfgT 2 { streaming with cur := 7#5 }).cur = 24#5 := by decide +kernel
/-- P3: nine bytes do not fit. -/
theorem test_ctrSeek_error : status (ctrSeek cfgT 9 streaming) = 0x00000027#32 := by decide +kernel

/-! ## The port and the step, from reset under the CORE's own configuration -/

theorem test_step_ciphInit : step (State.reset.withFetchWord 32 0x00003001) = exec (.ciphInit 48) State.reset := rfl
theorem test_step_ciphEnc : step (State.reset.withFetchWord 32 0x00001802) = exec (.ciphEnc 24) State.reset := rfl
theorem test_step_ciphDec : step (State.reset.withFetchWord 32 0x00001803) = exec (.ciphDec 24) State.reset := rfl
theorem test_step_ctrInit : step (State.reset.withFetchWord 32 0x10003004) = exec (.ctrInit 48 16) State.reset := rfl
theorem test_step_ctrEnc : step (State.reset.withFetchWord 32 0x00001905) = exec (.ctrEnc 25) State.reset := rfl
theorem test_step_ctrDec : step (State.reset.withFetchWord 32 0x00006406) = exec (.ctrDec 100) State.reset := rfl
theorem test_step_ctrSeek : step (State.reset.withFetchWord 32 0x00000207) = exec (.ctrSeek 2) State.reset := rfl
/-- R88, R85: an illegal word raises and completes. -/
theorem test_step_illegal : step (State.reset.withFetchWord 32 0x00000018) = .next (raise .illegalCommand State.reset) := rfl
/-- R53: an access the map does not hold is refused. -/
theorem test_step_refused : step { State.reset with port := [.write 0x000 1 0#32] } = .refused .wrongWidth := rfl
/-- R33, R203: STATUS answers, CMD reads 0. -/
theorem test_step_reads :
    step { State.reset with port := [.read 0x000 4] } = .next { State.reset with answers := [0#32] } ∧
      step { State.reset with port := [.read 0x004 4] } = .next { State.reset with answers := [0#32] } := ⟨rfl, rfl⟩

/-! ## Witnesses: for each statement with hypotheses, concrete operands and states that meet them all, a witness for each
clause at a boundary value of its range. -/

/-- Two KeySets that differ. -/
def keysA : KeySet := { km := Vector.replicate 72 0#32, kr := Vector.replicate 72 0#5 }
@[inherit_doc keysA] def keysB : KeySet := { km := Vector.replicate 72 1#32, kr := Vector.replicate 72 0#5 }

/-- A CORE after CTR_INIT, no keystream buffered. -/
def ready : State := { State.reset with keyed := true, ctrReady := true }
/-- The same with 14 keystream bytes buffered. -/
def midBlock : State := { ready with cur := 10#5, ctr := 1#64 }
/-- A CORE after CIPH_INIT only. -/
def keyedOnly : State := { State.reset with keyed := true }

/-- The state with `e` as the host's next access. -/
def pending (e : HostEvent) (s : State) : State := { s with port := [e] }

theorem witness_RotateLeftIsMultiplyAndWrap : 1 ≤ (1#5 : Rot).toNat ∧ 1 ≤ (31#5 : Rot).toNat := by decide

theorem zeroTables : ∀ t x, cfgZero.sbox t x = 0#32 := fun _ _ => rfl
theorem witness_DodecadRunsTwelveStatementsInOrder : ∀ t x, cfgZero.sbox t x = 0#32 := zeroTables
theorem witness_KeystreamBlockEncryptsNonceAndCounter : ∀ t x, cfgZero.sbox t x = 0#32 := zeroTables
theorem witness_HexadStatementsInOrder : 0 < 67 ∧ 66 < 67 := by decide
theorem witness_BlockCipherRoundTrips : ∀ t x, cfgZero.sbox t x = 0#32 := zeroTables

theorem witness_ShortKeyZeroFillsWholeWords :
    (44 ≤ (rising 0 44).length ∧ (rising 0 44).length ≤ 47) ∧ 44 ≤ (rising 0 47).length ∧ (rising 0 47).length ≤ 47 := by
  decide

theorem witness_KeyScheduleConsequences :
    (∀ t x, cfgZero.sbox t x = 0#32) ∧ ({ cfgT with dodecadCount := 0 } : Config).dodecadCount = 0 ∧
      (rising 1 3).length < 4 ∧ rising 1 3 ≠ [] := ⟨zeroTables, rfl, by decide, by decide⟩

theorem witness_KeyLengthCornerCases : 48 ≤ 48 ∧ 48 ≤ 49 ∧ 3 < 4 ∧ (44 ≤ 44 ∧ 44 ≤ 47) ∧ 44 ≤ 47 ∧ 47 ≤ 47 := by decide

theorem witness_CiphEncTransformsTheBlock : keyedOnly.keyed = true := rfl
theorem witness_CiphDecTransformsTheBlock : keyedOnly.keyed = true := rfl

theorem witness_BlockCommandErrors :
    State.reset.keyed = false ∧ keyedOnly.keyed = true ∧ 23 ≠ 24 ∧ 25 ≠ 24 ∧
      (Instr.ciphEnc 23 = .ciphEnc 23 ∨ Instr.ciphEnc 23 = .ciphDec 23) ∧
      (Instr.ciphDec 25 = .ciphEnc 25 ∨ Instr.ciphDec 25 = .ciphDec 25) := by decide

theorem witness_BlockCommandsUndoEachOther :
    keyedOnly.keyed = true ∧
      ((Instr.ciphEnc 24 = .ciphEnc 24 ∧ Instr.ciphDec 24 = .ciphDec 24) ∨
        (Instr.ciphEnc 24 = .ciphDec 24 ∧ Instr.ciphDec 24 = .ciphEnc 24)) ∧
      ((Instr.ciphDec 24 = .ciphEnc 24 ∧ Instr.ciphEnc 24 = .ciphDec 24) ∨
        (Instr.ciphDec 24 = .ciphDec 24 ∧ Instr.ciphEnc 24 = .ciphEnc 24)) := by decide

theorem witness_CtrInitRejectsOtherNonceLengths : 0 ≠ 16 ∧ 15 ≠ 16 ∧ 17 ≠ 16 := by decide

/-- A length up to 24 always fits DBUF (R10). -/
theorem fits {n : Nat} (h : n ≤ 24) : n ≤ Config.built.dbufBytes := Nat.le_trans h (dbufBytes_range _).1

/-- `n` is all that is left of the block (14), and one byte more; and the empty command. -/
theorem witness_StreamCommandsXorTheKeystream :
    midBlock.ctrReady = true ∧ midBlock.cur.toNat ≤ 24 ∧ 0 ≤ Config.built.dbufBytes ∧
      (14 ≤ Config.built.dbufBytes ∧ 14 ≤ 24 - midBlock.cur.toNat) ∧
      (15 ≤ Config.built.dbufBytes ∧ 24 - midBlock.cur.toNat < 15) ∧
      ready.ctrReady = true ∧ ready.cur.toNat ≤ 24 ∧ 24 - ready.cur.toNat < 1 :=
  ⟨rfl, by decide, Nat.zero_le _, ⟨fits (by decide), by decide⟩, ⟨fits (by decide), by decide⟩, rfl, by decide, by decide⟩

theorem witness_ModeCommandErrors :
    keyedOnly.ctrReady = false ∧ ready.ctrReady = true ∧ Config.built.dbufBytes < Config.built.dbufBytes + 1 ∧ 8 < 9 :=
  ⟨rfl, rfl, Nat.lt_succ_self _, by decide⟩

/-- At byte 1 of the keystream from counter 7: one byte of block 7 is used. -/
def atByteOne : State :=
  { ready with cur := 1#5, ctr := 8#64, ks := keystreamBlock Config.built ready.keys ready.nonce 7#64 }

theorem witness_StreamFollowsTheLogicalKeystream :
    (StreamAt Config.built 0#64 0 ready ∧ ready.ctrReady = true ∧ 24 ≤ Config.built.dbufBytes) ∧
      StreamAt Config.built 7#64 1 atByteOne ∧ atByteOne.ctrReady = true ∧ 23 ≤ Config.built.dbufBytes :=
  ⟨⟨⟨rfl, rfl⟩, rfl, fits (by decide)⟩, ⟨rfl, rfl, rfl⟩, rfl, fits (by decide)⟩

theorem witness_InitAndSeekStartTheKeystream : ready.ctrReady = true ∧ 0 ≤ 8 ∧ 8 ≤ 8 := by decide

theorem witness_PositionAfterStreamCommands :
    ready.ctrReady = true ∧ ready.cur = 24#5 ∧ ready.ctr = 0#64 ∧
      (∀ c ∈ [(false, 23), (true, 2)], c.2 ≤ Config.built.dbufBytes) ∧ 0 < ([23, 2] : List Nat).sum ∧
      (∀ c ∈ ([] : List (Bool × Nat)), c.2 ≤ Config.built.dbufBytes) :=
  ⟨rfl, rfl, rfl, fun c hc => fits (by revert c hc; decide), by decide, fun _ hc => nomatch hc⟩

/-- A ready CORE whose host re-keys, processes 23 bytes, issues an illegal word and a seek that fails, processes 2 bytes
and reads DBUF. -/
def mixedRun : List HostEvent :=
  [Script.issue (.ciphInit 48), Script.issue (.ctrEnc 23), Script.wr32 0x000 0x00000018#32, Script.issue (.ctrSeek 9),
    Script.issue (.ctrDec 2), .read 0x117 1]

theorem witness_PositionAlongAnyRun :
    (ready.ctrReady = true ∧ 0 ≤ 8 ∧ 8 ≤ 8) ∧
      (let s := { ready with port := mixedRun }
       s.ctrReady = true ∧ s.cur = 24#5 ∧ s.ctr = 0#64 ∧
        (∀ e ∈ s.port.take 6, meaningful Config.built e = true ∧ setsPosition e = false) ∧
        ((s.port.take 6).map (streamBytes Config.built)).sum = 25) ∧
      ((ready.port.take 6).map (streamBytes Config.built)).sum = 0 := by
  refine ⟨by decide, ⟨rfl, rfl, rfl, ?_, rfl⟩, rfl⟩
  intro e he
  simp only [mixedRun, List.take_succ_cons, List.take_zero, List.mem_cons, List.not_mem_nil, or_false] at he
  rcases he with rfl | rfl | rfl | rfl | rfl | rfl <;> exact ⟨rfl, by decide⟩

/-- After one byte of the stream the host reads STATUS and writes the second byte at `DBUF[0]`, both through the port; then
one byte follows. -/
theorem witness_SplitInvariance :
    ∃ t u : State, ready.ctrReady = true ∧ 1 + 1 ≤ Config.built.dbufBytes ∧
      exec (streamInstr false 1) ready = .next t ∧
      Host.Core.run Sys2Proof.core 2
        { t with port := [.read 0x004 4, Script.wr8 0x100 (readByte Config.built ready 0x101)] } = .next u ∧
      u.keys = t.keys ∧ u.nonce = t.nonce ∧ u.ctr = t.ctr ∧ u.cur = t.cur ∧ u.ks = t.ks ∧ u.ctrReady = t.ctrReady ∧
      u.answers ≠ t.answers ∧
      ∀ k, k < 1 → readByte Config.built u (0x100 + k) = readByte Config.built ready (0x100 + (1 + k)) := by
  have hb : ∀ b : Byte, (b.setWidth 32).setWidth 8 = b := by simp
  refine ⟨_, _, rfl, fits (by decide), rfl, rfl, rfl, rfl, rfl, rfl, rfl, rfl, ?_, fun k hk => ?_⟩
  · intro h
    exact absurd (congrArg List.length h) (Nat.succ_ne_self _)
  · obtain rfl : k = 0 := by omega
    exact (readByte_writeByte _ _ _ _ _).trans ((if_pos rfl).trans (hb _))

theorem witness_StreamIsAnInvolution :
    ∃ t u : State, midBlock.ctrReady = true ∧ u.ctrReady = true ∧ 15 ≤ Config.built.dbufBytes ∧
      exec (streamInstr false 15) midBlock = .next t ∧ u.keys = midBlock.keys ∧ u.nonce = midBlock.nonce ∧
      u.ctr = midBlock.ctr ∧ u.cur = midBlock.cur ∧ u.ks = midBlock.ks ∧
      ∀ k, k < 15 → readByte Config.built u (0x100 + k) = readByte Config.built t (0x100 + k) :=
  ⟨ctrEnc Config.built 15 midBlock, { midBlock with mem := (ctrEnc Config.built 15 midBlock).mem }, rfl, rfl,
    fits (by decide), rfl, rfl, rfl, rfl, rfl, rfl, fun k _ => by
      refine readByte_congr rfl ?_ _
      rcases streamCommand_cases Config.built 15 midBlock with ⟨_, h⟩ | ⟨_, _, h⟩ | ⟨_, _, h⟩ <;>
        rw [ctrEnc, h]⟩

theorem witness_CounterOfBytesIsBigEndian : (bytesOf 8 0x0102030405060708).length ≤ 8 ∧ ([] : List Byte).length ≤ 8 := by
  decide

theorem witness_CtrSeekSetsTheCounter : ready.ctrReady = true ∧ 0 ≤ 8 ∧ 8 ≤ 8 := by decide

theorem witness_RekeyKeepsBufferedKeystream :
    midBlock.ctrReady = true ∧ midBlock.cur.toNat ≤ 24 ∧ 24 ≤ Config.built.dbufBytes :=
  ⟨rfl, by decide, fits (by decide)⟩

theorem witness_SeekByteScriptReachesTheByte :
    (ready.ctrReady = true ∧ 24 / 24 < 2 ^ 64 ∧
        ({ ready with port := Script.ctrSeekByte 24 ++ [] } : State).port = Script.ctrSeekByte 24 ++ []) ∧
      29 / 24 < 2 ^ 64 ∧
      ({ ready with port := Script.ctrSeekByte 29 ++ [.read 0x004 4] } : State).port =
        Script.ctrSeekByte 29 ++ [.read 0x004 4] :=
  ⟨⟨rfl, by decide, rfl⟩, by decide, rfl⟩

theorem witness_OutcomeTable :
    (State.reset.ctrReady = true → State.reset.keyed = true) ∧ (ready.ctrReady = true → ready.keyed = true) ∧
      decode 0x00000012#32 = .illegal .reservedField ∧
      (pending (.write 0x000 4 0x00000012#32) ready).port = [.write 0x000 4 0x00000012#32] :=
  ⟨nofun, fun _ => rfl, by decide, rfl⟩

theorem witness_FailureChangesOnlyTheErrorFlags :
    decode 0x10001802#32 = .illegal .strayNonceLength ∧
      (pending (.write 0x000 4 0x10001802#32) ready).port = [.write 0x000 4 0x10001802#32] ∧
      (∃ t, exec (.ciphEnc 23) ready = .next t ∧ t.lastErr ≠ .ok) := ⟨by decide, rfl, _, rfl, nofun⟩

theorem witness_WriteSets_success :
    (∃ t, exec (.ciphInit 48) State.reset = .next t ∧ t.lastErr = .ok) ∧
      (∃ t, exec (.ciphEnc 24) ready = .next t ∧ t.lastErr = .ok) ∧
      (∃ t, exec (.ctrInit 48 16) State.reset = .next t ∧ t.lastErr = .ok) ∧
      (∃ t, exec (.ctrSeek 8) ready = .next t ∧ t.lastErr = .ok) := ⟨⟨_, rfl, rfl⟩, ⟨_, rfl, rfl⟩, ⟨_, rfl, rfl⟩, _, rfl, rfl⟩

theorem witness_WriteSets_stream :
    ∃ t, exec (.ctrEnc 14) midBlock = .next t ∧ t.lastErr = .ok ∧ 14 ≤ 24 - midBlock.cur.toNat := by
  refine ⟨_, rfl, ?_, by decide⟩
  rw [ctrEnc, streamCommand, if_neg nofun, if_pos (fits (by decide))]
  rfl

theorem witness_WriteSets_failure : ∃ t, exec (.ctrSeek 9) ready = .next t ∧ t.lastErr ≠ .ok := ⟨_, rfl, nofun⟩

theorem witness_WriteSets_port :
    (bufferByteAt Config.built 0x117 = true ∧ (pending (Script.wr8 0x117 5#8) ready).port = [Script.wr8 0x117 5#8]) ∧
      ((pending (Script.wr32 0x000 0x00000207#32) ready).port = [Script.wr32 0x000 0x00000207#32] ∧
        decode 0x00000207#32 = .command (.ctrSeek 2)) ∧
      (∃ t, (pending (.read 0x000 4) ready).port = [.read 0x000 4] ∧ step (pending (.read 0x000 4) ready) = .next t) ∧
      (pending (Script.wr32 0x004 1#32) ready).port = [Script.wr32 0x004 1#32] :=
  ⟨⟨rfl, rfl⟩, ⟨rfl, by decide⟩, ⟨_, rfl, rfl⟩, rfl⟩

/-- All three flags set, and a step that is no reset. -/
theorem witness_OnlyResetClearsTheFlags :
    let s := pending (.read 0x000 4) { ready with errSeen := true }
    (∃ t, step s = .next t) ∧ (∀ rest, s.port ≠ .reset :: rest) ∧ s.keyed = true ∧ s.ctrReady = true ∧ s.errSeen = true :=
  ⟨⟨_, rfl⟩, fun _ => nofun, rfl, rfl, rfl⟩

/-- A command that makes the KeySet new whatever it was gives one other than `keysA` or other than `keysB`. -/
theorem witness_OnlyTheseCommandsWriteTheSecrets_keys :
    ∃ s t, step (pending (.write 0x000 4 0x00003001#32) s) = .next t ∧ t.keys ≠ s.keys := by
  by_cases h : generateRoundKeys Config.built (keyOperand Config.built 48 State.reset) = keysA
  · exact ⟨{ State.reset with keys := keysB }, _, rfl, fun e => absurd (h.symm.trans e) (by decide)⟩
  · exact ⟨{ State.reset with keys := keysA }, _, rfl, h⟩

theorem witness_OnlyTheseCommandsWriteTheSecrets_nonce :
    ∃ s t, step (pending (.write 0x000 4 0x10003004#32) s) = .next t ∧ t.nonce ≠ s.nonce := by
  by_cases h : nonceOperand Config.built State.reset = Vector.replicate 16 0#8
  · exact ⟨{ State.reset with nonce := Vector.replicate 16 1#8 }, _, rfl, fun e => absurd (h.symm.trans e) (by decide)⟩
  · exact ⟨{ State.reset with nonce := Vector.replicate 16 0#8 }, _, rfl, h⟩

theorem witness_OnlyTheseCommandsWriteTheSecrets_keystream :
    ∃ s t, step (pending (.write 0x000 4 0x00000105#32) s) = .next t ∧ t.ks ≠ s.ks := by
  by_cases h : keystreamBlock Config.built ready.keys ready.nonce ready.ctr = Vector.replicate 24 0#8
  · exact ⟨{ ready with ks := Vector.replicate 24 1#8 }, _, rfl, fun e => absurd (h.symm.trans e) (by decide)⟩
  · exact ⟨{ ready with ks := Vector.replicate 24 0#8 }, _, rfl, h⟩

theorem witness_OnlyTheseCommandsWriteTheSecrets_counter :
    ∃ t, step (pending (.write 0x000 4 0x00000007#32) { ready with ctr := 5#64 }) = .next t ∧ t.ctr ≠ 5#64 :=
  ⟨_, rfl, by decide⟩

theorem witness_StatusLayout :
    (pending (.read 0x004 4) ready).port = [.read 0x004 4] ∧
      (pending (.write 0x004 4 0xFFFFFFFF#32) ready).port = [.write 0x004 4 0xFFFFFFFF#32] := ⟨rfl, rfl⟩

theorem witness_StepRunsTheDecodedCommand :
    (pending (.write 0x000 4 0x10003004#32) State.reset).port = [.write 0x000 4 0x10003004#32] ∧
      decode 0x10003004#32 = .command (.ctrInit 48 16) := ⟨rfl, by decide⟩

theorem witness_EveryCommandWordCompletes :
    (pending (.write 0x000 4 0xFFFFFFFF#32) ready).port = [.write 0x000 4 0xFFFFFFFF#32] := rfl

theorem witness_HostReadsAnswerAndChangeNothing :
    (pending (.read 0x000 4) ready).port = [.read 0x000 4] ∧ (pending (.read 0x004 4) ready).port = [.read 0x004 4] ∧
      (bufferByteAt Config.built 0x040 = true ∧ bufferByteAt Config.built 0x087 = true ∧
        bufferByteAt Config.built 0x117 = true) ∧
      (pending (.read 0x087 1) ready).port = [.read 0x087 1] := ⟨rfl, rfl, ⟨rfl, rfl, rfl⟩, rfl⟩

theorem witness_RefusedExactlyWhenTheMapHasNoSuchAccess :
    (meaningful Config.built (.read 0x088 1) = false ∧ meaningful Config.built (.read 0x040 4) = false ∧
        meaningful Config.built (.write 0x001 1 0#32) = false) ∧
      (meaningful Config.built (.read 0x000 4) = true ∧ meaningful Config.built (.write 0x117 1 0#32) = true ∧
        meaningful Config.built .reset = true) ∧
      (pending (.read 0x088 1) ready).port = [.read 0x088 1] ∧ State.reset.port = [] := by
  refine ⟨⟨?_, ?_, rfl⟩, ⟨rfl, rfl, rfl⟩, rfl, rfl⟩ <;> rfl

theorem witness_ResetEventRestoresTheFlags : (pending .reset ready).port = [.reset] := rfl

/-- The invariant holds of a CORE in the middle of a stream with an error seen. -/
theorem inv_midBlock (port : List HostEvent) :
    Inv Config.built { midBlock with port := port, lastErr := .invalidLength, errSeen := true, mem := [(0x117, 1#8)] } :=
  ⟨by simp, by intro c hc; obtain rfl := List.mem_singleton.1 hc; rfl, by show (10#5).toNat ≤ 24; decide, fun _ => rfl,
    fun _ => rfl⟩

theorem witness_EveryStepKeepsTheInvariant :
    ∃ s t, Inv Config.built s ∧ step s = .next t ∧ s.port = [.write 0x000 4 0x00000207#32] :=
  ⟨_, _, inv_midBlock [.write 0x000 4 0x00000207#32], rfl, rfl⟩

theorem witness_InvariantAlongEveryRun :
    ∃ s t : State, Inv Config.built s ∧ Host.Core.run Sys2Proof.core 2 s = .next t ∧ s.port.length = 2 :=
  ⟨_, _, inv_midBlock [.read 0x004 4, .write 0x004 4 0#32], rfl, rfl⟩

/-- Two COREs that differ in the KeySet and the cursor only; the host loads a key and reads STATUS. -/
theorem witness_SecretsDoNotReachTheHostWithoutADataCommand :
    let s := { ready with keys := keysA, port := [.write 0x000 4 0x00003001#32, .read 0x004 4] }
    let t := { s with keys := keysB, cur := 3#5 }
    SameToHost s t ∧ s.keys ≠ t.keys ∧ (∀ e ∈ s.port, noDataCommand e = true) ∧
      ∃ s', Host.Core.run Sys2Proof.core 2 s = .next s' :=
  ⟨⟨rfl, rfl, rfl, rfl, rfl, rfl, rfl, rfl⟩, by decide, by decide, _, rfl⟩

/-- The states differ in `KEYBUF[47]`, which a key of 47 bytes does not read. -/
theorem witness_OnlyTheKeyBytesEnterTheKeySet :
    (∀ i, i < min 47 48 →
        readByte Config.built (writeByte 0x06F 1#8 State.reset) (0x040 + i) =
          readByte Config.built State.reset (0x040 + i)) ∧
      16 = 16 :=
  ⟨fun i h => by rw [readByte_writeByte, if_neg (by omega)], rfl⟩

theorem witness_DecodeAgreesWithTheMatchTable :
    (∀ r ∈ encodingTable, r.matchesWord 0x00000000#32 = false) ∧
      (∃ r ∈ encodingTable, r.matchesWord 0x10003004#32 = true) := by decide

theorem witness_EncodedWordIsTheFieldSum :
    (Instr.ciphInit 65535).wellFormed = true ∧ (Instr.ctrInit 65535 255).wellFormed = true := by decide

theorem witness_DecodeAndEncodeAreInverse :
    (Instr.ctrInit 65535 255).wellFormed = true ∧ decode 0xFFFFFF04#32 = .command (.ctrInit 65535 255) := by decide

end Sys2Proof.Tests
end

