-- ==== Sys2Proof/Proofs/Scope.lean ====
section
/-!
PROOF. The scope of the CORE (spec 00_scope.md): the address map of the buffers, that every command word completes, and
that an access is refused exactly when the map does not list it.
-/

namespace Sys2Proof.Machine

/-! ### Offsets into a buffer -/

/-- An address at an offset below `n` from `base` is one of the range of `n` addresses from `base` (R51). -/
theorem exists_offset_lt_iff (base n a : Nat) : (∃ i, i < n ∧ a = base + i) ↔ base ≤ a ∧ a < base + n := by
  constructor
  · rintro ⟨i, hi, rfl⟩
    omega
  · rintro ⟨hle, hlt⟩
    exact ⟨a - base, by omega, by omega⟩

/-- The same range, named by its last offset. -/
theorem exists_offset_le_iff (base last a : Nat) :
    (∃ i, i ≤ last ∧ a = base + i) ↔ base ≤ a ∧ a < base + (last + 1) := by
  simpa only [Nat.lt_succ_iff] using exists_offset_lt_iff base (last + 1) a

/-- Settles O44: the ranges of `bufferByteAt_iff`, written by offset. -/
theorem addressMapOfTheBuffers : Obligations.AddressMapOfTheBuffers := by
  intro cfg
  obtain ⟨hmin, hmax⟩ := dbufBytes_range cfg
  refine ⟨hmin, hmax, fun a => ?_⟩
  rw [bufferByteAt_iff, exists_offset_le_iff, exists_offset_le_iff, exists_offset_le_iff, exists_offset_lt_iff]

/-! ### No command touches the host's side -/

theorem blockCommand_sameHostSide (cfg : Config) (f : Config → KeySet → Vector Byte 24 → Vector Byte 24) (dlen : Nat)
    (s : State) : SameHostSide s (blockCommand cfg f dlen s) := by
  rcases blockCommand_cases cfg f dlen s with ⟨_, h⟩ | ⟨_, _, h⟩ | ⟨_, _, h⟩ <;> rw [h]
  · simp [SameHostSide]
  · simp [SameHostSide]
  · rw [storeBlock_eq]
    simp [SameHostSide]

theorem ctrInit_sameHostSide (cfg : Config) (klen nlen : Nat) (s : State) :
    SameHostSide s (ctrInit cfg klen nlen s) := by
  rcases ctrInit_cases cfg klen nlen s with ⟨_, h⟩ | ⟨_, h⟩ <;> rw [h] <;> simp [SameHostSide]

theorem streamCommand_sameHostSide (cfg : Config) (dlen : Nat) (s : State) :
    SameHostSide s (streamCommand cfg dlen s) := by
  rcases streamCommand_cases cfg dlen s with ⟨_, h⟩ | ⟨_, _, h⟩ | ⟨_, _, h⟩ <;> rw [h] <;> simp [SameHostSide]

theorem ctrSeek_sameHostSide (cfg : Config) (clen : Nat) (s : State) : SameHostSide s (ctrSeek cfg clen s) := by
  rcases ctrSeek_cases cfg clen s with ⟨_, h⟩ | ⟨_, _, h⟩ | ⟨_, _, h⟩ <;> rw [h] <;> simp [SameHostSide]

/-- "No command hangs, no command is partial" (R13). -/
theorem exec_completes (i : Instr) (s : State) : ∃ t, exec i s = .next t ∧ SameHostSide s t := by
  cases i with
  | ciphInit klen => exact ⟨_, exec_ciphInit klen s, by simp [SameHostSide, ciphInit]⟩
  | ciphEnc dlen => exact ⟨_, exec_ciphEnc dlen s, blockCommand_sameHostSide ..⟩
  | ciphDec dlen => exact ⟨_, exec_ciphDec dlen s, blockCommand_sameHostSide ..⟩
  | ctrInit klen nlen => exact ⟨_, exec_ctrInit klen nlen s, ctrInit_sameHostSide ..⟩
  | ctrEnc dlen => exact ⟨_, exec_ctrEnc dlen s, streamCommand_sameHostSide ..⟩
  | ctrDec dlen => exact ⟨_, exec_ctrDec dlen s, streamCommand_sameHostSide ..⟩
  | ctrSeek clen => exact ⟨_, exec_ctrSeek clen s, ctrSeek_sameHostSide ..⟩

/-- A command word runs its command or, being illegal, raises (R89); both complete. -/
theorem execWord_completes (c : Word) (s : State) : ∃ t, execWord exec c s = .next t ∧ SameHostSide s t := by
  cases hd : decode c with
  | command i =>
    obtain ⟨t, ht, hside⟩ := exec_completes i s
    exact ⟨t, by simp only [execWord, hd, ht], hside⟩
  | illegal why => exact ⟨raise .illegalCommand s, by simp only [execWord, hd], by simp [SameHostSide]⟩

/-- A 4-byte write at `CMD` is the word it writes (R32). -/
theorem memWrite_cmd (cfg : Config) (ex : Instr → State → Result) (c : Word) (s : State) :
    memWrite cfg ex cmdAddr 4 c s = execWord ex c s := by
  rw [memWrite, if_pos ⟨rfl, rfl⟩]

/-- Settles O42: the step is the word, which completes and leaves the host's side as taking the access left it. -/
theorem everyCommandWordCompletes : Obligations.EveryCommandWordCompletes := by
  intro s c rest hport
  obtain ⟨t, ht, hside⟩ := execWord_completes c { s with port := rest }
  obtain ⟨hrest, hanswers, hdraw⟩ := hside
  exact ⟨t, (step_cons hport).trans ((memWrite_cmd ..).trans ht), hrest, hanswers, hdraw⟩

/-! ### Which accesses the port serves -/

/-- The reads R59 lists. -/
theorem meaningful_read_iff (cfg : Config) (a n : Nat) :
    meaningful cfg (.read a n) = true ↔
      (n = 4 ∧ a = cmdAddr) ∨ (n = 4 ∧ a = statusAddr) ∨ (n = 1 ∧ bufferByteAt cfg a = true) := by
  simp only [meaningful, Bool.or_eq_true, Bool.and_eq_true, beq_iff_eq, and_or_left, or_assoc]

/-- R59 lists the same addresses and widths for writes as for reads. -/
theorem meaningful_write_eq_read (cfg : Config) (a n : Nat) (v : Word) :
    meaningful cfg (.write a n v) = meaningful cfg (.read a n) := rfl

theorem memRead_of_meaningful {cfg : Config} {a n : Nat} (h : meaningful cfg (.read a n) = true) (s : State) :
    ∃ v, memRead cfg a n s = .ok v := by
  rw [meaningful_read_iff] at h
  unfold memRead
  split_ifs with hcmd hstatus hbyte
  · exact ⟨_, rfl⟩
  · exact ⟨_, rfl⟩
  · exact ⟨_, rfl⟩
  · exact absurd h (not_or.2 ⟨hcmd, not_or.2 ⟨hstatus, hbyte⟩⟩)

theorem memWrite_of_meaningful {cfg : Config} {a n : Nat} {v : Word} (h : meaningful cfg (.write a n v) = true)
    (s : State) : ∃ t, memWrite cfg exec a n v s = .next t := by
  rw [meaningful_write_eq_read, meaningful_read_iff] at h
  unfold memWrite
  split_ifs with hcmd hstatus hbyte
  · exact (execWord_completes v s).imp fun _ ht => ht.1
  · exact ⟨_, rfl⟩
  · exact ⟨_, rfl⟩
  · exact absurd h (not_or.2 ⟨hcmd, not_or.2 ⟨hstatus, hbyte⟩⟩)

/-- An access R59 does not list is at neither register's base with the width 4, nor at a buffer byte with the width 1. -/
theorem not_listed_of_not_meaningful {cfg : Config} {a n : Nat} (h : meaningful cfg (.read a n) = false) :
    ¬ (n = 4 ∧ a = cmdAddr) ∧ ¬ (n = 4 ∧ a = statusAddr) ∧ ¬ (n = 1 ∧ bufferByteAt cfg a = true) := by
  rwa [← Bool.not_eq_true, meaningful_read_iff, not_or, not_or] at h

theorem memRead_of_not_meaningful {cfg : Config} {a n : Nat} (h : meaningful cfg (.read a n) = false) (s : State) :
    memRead cfg a n s = .error (refusalAt cfg a) := by
  obtain ⟨hcmd, hstatus, hbyte⟩ := not_listed_of_not_meaningful h
  rw [memRead, if_neg hcmd, if_neg hstatus, if_neg hbyte]

theorem memWrite_of_not_meaningful {cfg : Config} {a n : Nat} {v : Word} (h : meaningful cfg (.write a n v) = false)
    (ex : Instr → State → Result) (s : State) : memWrite cfg ex a n v s = .refused (refusalAt cfg a) := by
  obtain ⟨hcmd, hstatus, hbyte⟩ := not_listed_of_not_meaningful h
  rw [memWrite, if_neg hcmd, if_neg hstatus, if_neg hbyte]

/-- Every listed access, and every reset, completes. -/
theorem portEvent_of_meaningful {cfg : Config} {e : HostEvent} (h : meaningful cfg e = true) (s : State) :
    ∃ t, portEvent cfg exec e s = .next t := by
  cases e with
  | read a n =>
    obtain ⟨v, hv⟩ := memRead_of_meaningful h s
    exact ⟨{ s with answers := v :: s.answers }, by simp only [portEvent, hv]⟩
  | write a n v => exact memWrite_of_meaningful h s
  | reset => exact ⟨_, rfl⟩

/-- Every other access "is refused" (R53). -/
theorem portEvent_of_not_meaningful {cfg : Config} {e : HostEvent} (h : meaningful cfg e = false)
    (ex : Instr → State → Result) (s : State) : ∃ r, portEvent cfg ex e s = .refused r := by
  cases e with
  | read a n => exact ⟨refusalAt cfg a, by simp only [portEvent, memRead_of_not_meaningful h]⟩
  | write a n v => exact ⟨_, memWrite_of_not_meaningful h ex s⟩
  | reset => cases h

/-- With nothing pending the CORE does nothing (R12, R216). -/
theorem step_nil {s : State} (h : s.port = []) : step s = .next s := by
  simp only [step, servePort, h]

/-- Settles O45: the step is the pending event, which the port serves or refuses as R59 lists it; that nothing faults
is that `Fault` has no value. -/
theorem refusedExactlyWhenTheMapHasNoSuchAccess : Obligations.RefusedExactlyWhenTheMapHasNoSuchAccess := by
  refine ⟨fun s e rest hport => ?_, fun s => step_nil, fun s f => nomatch f⟩
  rw [step_cons hport]
  exact ⟨fun h => portEvent_of_not_meaningful h exec _, fun h => portEvent_of_meaningful h _⟩

end Sys2Proof.Machine
end

