-- ==== Sys2Proof/Proofs/State.lean ====
section
/-!
PROOF. The state of the CORE (spec 10_state.md): the invariants of R40 along every run, what each command and each host
access may write (R42), which steps clear a flag or change a secret, that the secrets have no host path but the data
commands, what enters the KeySet, STATUS and reset.
-/

namespace Sys2Proof.Machine

/-! ### What the port does with the listed writes -/

theorem memWrite_status (cfg : Config) (ex : Instr → State → Result) (v : Word) (s : State) :
    memWrite cfg ex statusAddr 4 v s = .next s := by
  rw [memWrite, if_neg (by decide), if_pos ⟨rfl, rfl⟩]

theorem memWrite_byte {cfg : Config} {a : Nat} (hmapped : bufferByteAt cfg a = true) (ex : Instr → State → Result)
    (v : Word) (s : State) : memWrite cfg ex a 1 v s = .next (writeByte a (v.setWidth 8) s) := by
  rw [memWrite, if_neg (by omega), if_neg (by omega), if_pos ⟨rfl, hmapped⟩]

/-- No event puts an access on the port or takes one off it. -/
theorem portEvent_port {e : HostEvent} {s t : State} (h : portEvent Config.built exec e s = .next t) :
    t.port = s.port := by
  rcases portEvent_next h with ⟨_, _, _, _, _, rfl⟩ | ⟨a, n, v, _, hwrite⟩ | ⟨_, rfl⟩
  · rfl
  · rcases memWrite_next hwrite with ⟨_, _, hexec⟩ | ⟨_, _, rfl⟩ | ⟨_, _, rfl⟩
    · obtain ⟨u, hu, hport, _⟩ := execWord_completes v s
      injection hexec.symm.trans hu with htu
      exact htu ▸ hport
    · rfl
    · exact writeByte_port ..
  · exact resetEvent_port ..

/-! ### What a completed command, event or step did -/

/-- `Succeeds s i t`: the command `i` succeeds on `s` and leaves `t` (R128, R148, R149, R165 to R167, R169).
`exec_next` ties it to `exec`. -/
inductive Succeeds (s : State) : Instr → State → Prop
  | ciphInit (klen : Nat) : Succeeds s (.ciphInit klen) (succeed (keySetup Config.built klen s))
  | ciphEnc (hkeyed : s.keyed = true) :
      Succeeds s (.ciphEnc 24)
        (succeed (storeBlock (encryptBlock Config.built s.keys (blockOperand Config.built s)) s))
  | ciphDec (hkeyed : s.keyed = true) :
      Succeeds s (.ciphDec 24)
        (succeed (storeBlock (decryptBlock Config.built s.keys (blockOperand Config.built s)) s))
  | ctrInit (klen : Nat) :
      Succeeds s (.ctrInit klen 16)
        { s with keys := generateRoundKeys Config.built (keyOperand Config.built klen s), keyed := true,
                 nonce := nonceOperand Config.built s, ctr := 0#64, cur := 24#5, ctrReady := true, lastErr := .ok }
  | stream (decrypting : Bool) (dlen : Nat) (hready : s.ctrReady = true) (hlen : dlen ≤ Config.built.dbufBytes) :
      Succeeds s (streamInstr decrypting dlen) (succeed (ctrXor Config.built dlen s))
  | ctrSeek (clen : Nat) (hready : s.ctrReady = true) (hlen : clen ≤ 8) :
      Succeeds s (.ctrSeek clen)
        (succeed { s with ctr := counterOfBytes (seekOperand Config.built clen s), cur := 24#5 })

/-- A block command raises or stores the block it made (R148, R149). -/
theorem blockCommand_raise_or (cfg : Config) (f : Config → KeySet → Vector Byte 24 → Vector Byte 24) (dlen : Nat)
    (s : State) :
    (∃ e, e ≠ .ok ∧ blockCommand cfg f dlen s = raise e s) ∨
      (s.keyed = true ∧ dlen = 24 ∧
        blockCommand cfg f dlen s = succeed (storeBlock (f cfg s.keys (blockOperand cfg s)) s)) := by
  rcases blockCommand_cases cfg f dlen s with ⟨_, h⟩ | ⟨_, _, h⟩ | hstored
  · exact .inl ⟨.notInitialised, nofun, h⟩
  · exact .inl ⟨.invalidLength, nofun, h⟩
  · exact .inr hstored

/-- A stream command raises or processes its bytes (R166, R167). -/
theorem streamCommand_raise_or (cfg : Config) (dlen : Nat) (s : State) :
    (∃ e, e ≠ .ok ∧ streamCommand cfg dlen s = raise e s) ∨
      (s.ctrReady = true ∧ dlen ≤ cfg.dbufBytes ∧ streamCommand cfg dlen s = succeed (ctrXor cfg dlen s)) := by
  rcases streamCommand_cases cfg dlen s with ⟨_, h⟩ | ⟨_, _, h⟩ | hprocessed
  · exact .inl ⟨.notInitialised, nofun, h⟩
  · exact .inl ⟨.invalidLength, nofun, h⟩
  · exact .inr hprocessed

/-- A command raises one of the error codes or succeeds (R190). -/
theorem exec_next {i : Instr} {s t : State} (h : exec i s = .next t) :
    (∃ e, e ≠ .ok ∧ t = raise e s) ∨ Succeeds s i t := by
  cases i <;> injection h with h <;> subst h
  case ciphInit klen => exact .inr (.ciphInit klen)
  case ciphEnc dlen =>
    refine (blockCommand_raise_or Config.built encryptBlock dlen s).imp_right ?_
    rintro ⟨hkeyed, rfl, h⟩
    rw [ciphEnc, h]
    exact .ciphEnc hkeyed
  case ciphDec dlen =>
    refine (blockCommand_raise_or Config.built decryptBlock dlen s).imp_right ?_
    rintro ⟨hkeyed, rfl, h⟩
    rw [ciphDec, h]
    exact .ciphDec hkeyed
  case ctrInit klen nlen =>
    rcases ctrInit_cases Config.built klen nlen s with ⟨_, h⟩ | ⟨rfl, h⟩ <;> rw [h]
    · exact .inl ⟨.invalidLength, nofun, rfl⟩
    · exact .inr (.ctrInit klen)
  case ctrEnc dlen =>
    refine (streamCommand_raise_or Config.built dlen s).imp_right ?_
    rintro ⟨hready, hlen, h⟩
    rw [ctrEnc, h]
    exact .stream false dlen hready hlen
  case ctrDec dlen =>
    refine (streamCommand_raise_or Config.built dlen s).imp_right ?_
    rintro ⟨hready, hlen, h⟩
    rw [ctrDec, h]
    exact .stream true dlen hready hlen
  case ctrSeek clen =>
    rcases ctrSeek_cases Config.built clen s with ⟨_, h⟩ | ⟨_, _, h⟩ | ⟨hready, hlen, h⟩ <;> rw [h]
    · exact .inl ⟨.notInitialised, nofun, rfl⟩
    · exact .inl ⟨.invalidLength, nofun, rfl⟩
    · exact .inr (.ctrSeek clen hready hlen)

/-- `Serves s e t`: the port serves the event `e` in `s` and leaves `t` (R59, R89, R215). Of a raise it says that a
write to `CMD` caused it, not why. `portEvent_serves` ties it to `portEvent`. -/
inductive Serves (s : State) : HostEvent → State → Prop
  | read (a n : Nat) (v : Word) : Serves s (.read a n) { s with answers := v :: s.answers }
  | writeStatus (v : Word) : Serves s (.write statusAddr 4 v) s
  | writeByte (a : Nat) (v : Word) (hmapped : bufferByteAt Config.built a = true) :
      Serves s (.write a 1 v) (writeByte a (v.setWidth 8) s)
  | raised (c : Word) (e : ErrCode) (herr : e ≠ .ok) : Serves s (.write cmdAddr 4 c) (raise e s)
  | command (c : Word) (i : Instr) (t : State) (hdecode : decode c = .command i) (hsucceeds : Succeeds s i t) :
      Serves s (.write cmdAddr 4 c) t
  | reset : Serves s .reset (resetEvent Config.built s)

theorem execWord_serves {c : Word} {s t : State} (h : execWord exec c s = .next t) :
    Serves s (.write cmdAddr 4 c) t := by
  rcases execWord_next h with ⟨i, hdecode, hexec⟩ | ⟨_, _, rfl⟩
  · rcases exec_next hexec with ⟨e, herr, rfl⟩ | hsucceeds
    · exact .raised c e herr
    · exact .command c i t hdecode hsucceeds
  · exact .raised c _ nofun

theorem portEvent_serves {e : HostEvent} {s t : State} (h : portEvent Config.built exec e s = .next t) :
    Serves s e t := by
  rcases portEvent_next h with ⟨a, n, v, rfl, _, rfl⟩ | ⟨a, n, v, rfl, hwrite⟩ | ⟨rfl, rfl⟩
  · exact .read a n v
  · rcases memWrite_next hwrite with ⟨rfl, rfl, hexec⟩ | ⟨rfl, rfl, rfl⟩ | ⟨rfl, hmapped, rfl⟩
    · exact execWord_serves hexec
    · exact .writeStatus v
    · exact .writeByte a v hmapped
  · exact .reset

/-- A completed step did nothing, the port being idle, or served the oldest pending event. -/
theorem step_serves {s t : State} (h : step s = .next t) :
    (s.port = [] ∧ t = s) ∨ ∃ e rest, s.port = e :: rest ∧ Serves { s with port := rest } e t :=
  (step_next h).imp_right fun ⟨e, rest, hport, hevent⟩ => ⟨e, rest, hport, portEvent_serves hevent⟩

/-- A command that succeeds ends with the result code 0 (R190). -/
theorem Succeeds.lastErr {i : Instr} {s t : State} (h : Succeeds s i t) : t.lastErr = .ok := by
  cases h <;> rfl

/-! ### Every operation keeps the invariants of R40 -/

section Invariant

variable {cfg : Config} {s : State}

/-- The invariant says nothing of the host's side. -/
theorem Inv.withHostSide (h : Inv cfg s) (port : List HostEvent) (answers : List Word) :
    Inv cfg { s with port := port, answers := answers } :=
  ⟨h.memWf, h.memMapped, h.curLe, h.readyKeyed, h.errSticky⟩

/-- Buffers in the canonical form and within the map may take the place of the old ones. -/
theorem Inv.withMem (h : Inv cfg s) {m : Memory} (hwf : Memory.wf m) (hmapped : ∀ c ∈ m, bufferByteAt cfg c.1 = true) :
    Inv cfg { s with mem := m } :=
  ⟨hwf, hmapped, h.curLe, h.readyKeyed, h.errSticky⟩

theorem Inv.succeed (h : Inv cfg s) : Inv cfg (succeed s) :=
  ⟨h.memWf, h.memMapped, h.curLe, h.readyKeyed, fun hne => absurd (succeed_lastErr s) hne⟩

theorem Inv.raise (h : Inv cfg s) (e : ErrCode) : Inv cfg (raise e s) :=
  ⟨h.memWf, h.memMapped, h.curLe, h.readyKeyed, fun _ => raise_errSeen e s⟩

theorem Inv.keySetup (h : Inv cfg s) (klen : Nat) : Inv cfg (keySetup cfg klen s) :=
  ⟨h.memWf, h.memMapped, h.curLe, fun _ => keySetup_keyed cfg klen s, h.errSticky⟩

theorem Inv.writeByte (h : Inv cfg s) {a : Nat} (ha : bufferByteAt cfg a = true) (b : Byte) :
    Inv cfg (writeByte a b s) := by
  refine h.withMem (put_wf h.memWf a b) fun c hc => ?_
  rcases mem_put hc with hc | rfl
  · exact h.memMapped c hc
  · exact ha

/-- A block in `DBUF[0..23]` is within the map, `DBUF_BYTES` being at least 24 (R10). -/
theorem Inv.storeBlock (h : Inv cfg s) (b : Vector Byte 24) : Inv cfg (storeBlock b s) := by
  rw [storeBlock_eq]
  refine h.withMem (writeBytes_wf h.memWf _ _) fun c hc => ?_
  rcases mem_writeBytes hc with hc | ⟨hle, hlt⟩
  · exact h.memMapped c hc
  · have hsize := (dbufBytes_range cfg).1
    rw [Vector.length_toList] at hlt
    rw [bufferByteAt_iff]
    simp only [Buffer.addr, Buffer.base] at hle hlt
    omega

theorem Inv.ctrXor (h : Inv cfg s) {n : Nat} (hn : n ≤ cfg.dbufBytes) : Inv cfg (ctrXor cfg n s) where
  memWf := ctrXor_wf cfg n h.memWf
  memMapped c hc := by
    rcases mem_ctrXor hc with hc | ⟨i, hi, hc⟩
    · exact h.memMapped c hc
    · rw [hc]
      exact bufferByteAt_dbuf (Nat.lt_of_lt_of_le hi hn)
  curLe := ctrXor_cur_le cfg n h.curLe
  readyKeyed := by simpa using h.readyKeyed
  errSticky := by simpa using h.errSticky

theorem Inv.resetEvent (h : Inv cfg s) : Inv cfg (resetEvent cfg s) where
  memWf := redraw_wf h.memWf cfg _
  memMapped c hc := by
    obtain ⟨d, hd, hdc⟩ := mem_redraw hc
    exact hdc ▸ h.memMapped d hd
  curLe := by simp
  readyKeyed := by simp
  errSticky := by simp

end Invariant

theorem Succeeds.inv {i : Instr} {s t : State} (hs : Inv Config.built s) (h : Succeeds s i t) : Inv Config.built t := by
  cases h with
  | ciphInit klen => exact (hs.keySetup klen).succeed
  | ciphEnc _ => exact (hs.storeBlock _).succeed
  | ciphDec _ => exact (hs.storeBlock _).succeed
  | ctrInit klen => exact ⟨hs.memWf, hs.memMapped, Nat.le_refl 24, fun _ => rfl, fun hne => absurd rfl hne⟩
  | stream decrypting dlen _ hlen => exact (hs.ctrXor hlen).succeed
  | ctrSeek clen _ _ => exact ⟨hs.memWf, hs.memMapped, Nat.le_refl 24, hs.readyKeyed, fun hne => absurd rfl hne⟩

theorem Serves.inv {e : HostEvent} {s t : State} (hs : Inv Config.built s) (h : Serves s e t) : Inv Config.built t := by
  cases h with
  | read a n v => exact hs.withHostSide s.port (v :: s.answers)
  | writeStatus v => exact hs
  | writeByte a v hmapped => exact hs.writeByte hmapped _
  | raised c e _ => exact hs.raise e
  | command c i t _ hsucceeds => exact hsucceeds.inv hs
  | reset => exact hs.resetEvent

/-- Settles O48. -/
theorem invariantAtReset : Obligations.InvariantAtReset := by
  constructor <;> simp [Memory.wf]

/-- Settles O49: the invariant says nothing of the port, and serving an event keeps it. -/
theorem everyStepKeepsTheInvariant : Obligations.EveryStepKeepsTheInvariant := by
  intro s t hs hstep
  rcases step_serves hstep with ⟨_, rfl⟩ | ⟨e, rest, _, hserves⟩
  · exact hs
  · exact hserves.inv (hs.withHostSide rest s.answers)

/-- Settles O50, by induction on the number of steps. -/
theorem invariantAlongEveryRun : Obligations.InvariantAlongEveryRun := by
  intro k
  induction k with
  | zero =>
    intro s t hs hrun
    injection (run_zero s).symm.trans hrun with hst
    exact hst ▸ hs
  | succ k ih =>
    intro s u hs hrun
    obtain ⟨t, hstep, hrest⟩ := run_succ hrun
    exact ih t u (everyStepKeepsTheInvariant s t hs hstep) hrest

/-! ### Without a data command the secrets have no host path -/

section SameToHost

variable {s t : State}

theorem SameToHost.status (h : SameToHost s t) : status s = status t := by
  simp only [Machine.status, h.keyed, h.ctrReady, h.errSeen, h.lastErr]

/-- The port answers a read alike. -/
theorem SameToHost.memRead (h : SameToHost s t) (cfg : Config) (a n : Nat) : memRead cfg a n s = memRead cfg a n t := by
  simp only [Machine.memRead, h.status, readByte_congr h.mem h.draw]

theorem SameToHost.withPort (h : SameToHost s t) (rest : List HostEvent) :
    SameToHost { s with port := rest } { t with port := rest } :=
  { h with port := rfl }

theorem SameToHost.answer (h : SameToHost s t) (v : Word) :
    SameToHost { s with answers := v :: s.answers } { t with answers := v :: t.answers } :=
  { h with answers := congrArg (v :: ·) h.answers }

theorem SameToHost.succeed (h : SameToHost s t) : SameToHost (succeed s) (succeed t) :=
  { h with lastErr := rfl }

theorem SameToHost.raise (h : SameToHost s t) (e : ErrCode) : SameToHost (raise e s) (raise e t) :=
  { h with lastErr := rfl, errSeen := rfl }

theorem SameToHost.writeByte (h : SameToHost s t) (a : Nat) (b : Byte) :
    SameToHost (writeByte a b s) (writeByte a b t) :=
  { h with mem := congrArg (Memory.put · a b) h.mem }

theorem SameToHost.keySetup (h : SameToHost s t) (cfg : Config) (klen : Nat) :
    SameToHost (keySetup cfg klen s) (keySetup cfg klen t) :=
  { h with keyed := rfl }

theorem SameToHost.resetEvent (h : SameToHost s t) (cfg : Config) : SameToHost (resetEvent cfg s) (resetEvent cfg t) := by
  constructor <;> simp [h.port, h.answers, h.mem, h.draw]

/-- Whether CTR_INIT fails depends on `NLEN` alone (R165). -/
theorem SameToHost.ctrInit (h : SameToHost s t) (cfg : Config) (klen nlen : Nat) :
    SameToHost (ctrInit cfg klen nlen s) (ctrInit cfg klen nlen t) := by
  unfold Machine.ctrInit
  split
  · exact h.raise _
  · constructor <;> simp [h.port, h.answers, h.errSeen, h.mem, h.draw]

/-- Whether CTR_SEEK fails depends on `CTR_READY` and `CLEN` alone (R169). -/
theorem SameToHost.ctrSeek (h : SameToHost s t) (cfg : Config) (clen : Nat) :
    SameToHost (ctrSeek cfg clen s) (ctrSeek cfg clen t) := by
  unfold Machine.ctrSeek
  rw [h.ctrReady]
  split
  · exact h.raise _
  · split
    · exact { h with ctrReady := rfl, lastErr := rfl }
    · exact h.raise _

/-- A command word that is no data command completes on both and leaves them alike. -/
theorem SameToHost.execWord (h : SameToHost s t) {c : Word} (hc : noDataCommand (.write cmdAddr 4 c) = true) :
    ∃ s' t', execWord exec c s = .next s' ∧ execWord exec c t = .next t' ∧ SameToHost s' t' := by
  simp only [noDataCommand, beq_self_eq_true, Bool.and_self, Bool.not_true, Bool.false_or] at hc
  unfold Machine.execWord
  cases hdecode : decode c with
  | illegal why => exact ⟨_, _, rfl, rfl, h.raise _⟩
  | command i =>
    rw [hdecode] at hc
    cases i with
    | ciphInit klen => exact ⟨_, _, rfl, rfl, (h.keySetup Config.built klen).succeed⟩
    | ctrInit klen nlen => exact ⟨_, _, rfl, rfl, h.ctrInit Config.built klen nlen⟩
    | ctrSeek clen => exact ⟨_, _, rfl, rfl, h.ctrSeek Config.built clen⟩
    | ciphEnc | ciphDec | ctrEnc | ctrDec => cases hc

/-- What one CORE does with an event that is no data command, the other does too. -/
theorem SameToHost.portEvent {s' : State} {e : HostEvent} (h : SameToHost s t) (he : noDataCommand e = true)
    (hs : portEvent Config.built exec e s = .next s') :
    ∃ t', portEvent Config.built exec e t = .next t' ∧ SameToHost s' t' := by
  rcases portEvent_next hs with ⟨a, n, v, rfl, hread, rfl⟩ | ⟨a, n, v, rfl, hwrite⟩ | ⟨rfl, rfl⟩
  · rw [h.memRead] at hread
    exact ⟨_, by simp only [Machine.portEvent, hread], h.answer v⟩
  · simp only [Machine.portEvent]
    rcases memWrite_next hwrite with ⟨rfl, rfl, hexec⟩ | ⟨rfl, rfl, rfl⟩ | ⟨rfl, hmapped, rfl⟩
    · obtain ⟨u, t', hu, ht, hsame⟩ := h.execWord he
      injection hexec.symm.trans hu with hsu
      exact ⟨t', (memWrite_cmd ..).trans ht, hsu ▸ hsame⟩
    · exact ⟨t, memWrite_status .., h⟩
    · exact ⟨_, memWrite_byte hmapped .., h.writeByte _ _⟩
  · exact ⟨_, rfl, h.resetEvent Config.built⟩

end SameToHost

theorem SameToHost.step {s t s' : State} (h : SameToHost s t) (hport : ∀ e ∈ s.port, noDataCommand e = true)
    (hs : step s = .next s') :
    ∃ t', step t = .next t' ∧ SameToHost s' t' ∧ ∀ e ∈ s'.port, noDataCommand e = true := by
  rcases step_next hs with ⟨hnil, rfl⟩ | ⟨e, rest, hcons, hevent⟩
  · exact ⟨t, step_nil (h.port ▸ hnil), h, hport⟩
  · rw [hcons, List.forall_mem_cons] at hport
    obtain ⟨t', ht, hsame⟩ := (h.withPort rest).portEvent hport.1 hevent
    exact ⟨t', (step_cons (h.port ▸ hcons)).trans ht, hsame, (portEvent_port hevent).symm ▸ hport.2⟩

/-- Settles O51, by induction on the number of steps. -/
theorem secretsDoNotReachTheHostWithoutADataCommand : Obligations.SecretsDoNotReachTheHostWithoutADataCommand := by
  intro k
  induction k with
  | zero =>
    intro s t s' hsame _ hrun
    injection (run_zero s).symm.trans hrun with hs
    exact ⟨t, run_zero t, hs ▸ hsame⟩
  | succ k ih =>
    intro s t s' hsame hport hrun
    obtain ⟨u, hstep, hrest⟩ := run_succ hrun
    obtain ⟨v, hstep', hsame', hport'⟩ := hsame.step hport hstep
    obtain ⟨t', hrun', hfinal⟩ := ih u v s' hsame' hport' hrest
    exact ⟨t', (run_next k hstep').trans hrun', hfinal⟩

/-! ### Which steps clear a flag or change a secret -/

/-- `KEYED`, `CTR_READY` and `ERR_SEEN` are set in `t` where they are set in `s`. -/
def FlagsKept (s t : State) : Prop :=
  (s.keyed = true → t.keyed = true) ∧ (s.ctrReady = true → t.ctrReady = true) ∧ (s.errSeen = true → t.errSeen = true)

theorem FlagsKept.refl (s : State) : FlagsKept s s := ⟨id, id, id⟩

theorem Succeeds.flagsKept {i : Instr} {s t : State} (h : Succeeds s i t) : FlagsKept s t := by
  cases h with
  | ciphInit klen => exact ⟨fun _ => rfl, id, id⟩
  | ciphEnc _ | ciphDec _ =>
    rw [storeBlock_eq]
    exact .refl s
  | ctrInit klen => exact ⟨fun _ => rfl, fun _ => rfl, id⟩
  | stream decrypting dlen _ _ => simp [FlagsKept]
  | ctrSeek clen _ _ => exact .refl s

/-- Serving any event but a reset keeps the flags: a raise sets `ERR_SEEN`, a key-loading command sets the other two. -/
theorem Serves.flagsKept {e : HostEvent} {s t : State} (h : Serves s e t) (hreset : e ≠ .reset) : FlagsKept s t := by
  cases h with
  | read a n v => exact .refl s
  | writeStatus v => exact .refl s
  | writeByte a v _ => exact .refl s
  | raised c e _ => exact ⟨id, id, fun _ => rfl⟩
  | command c i t _ hsucceeds => exact hsucceeds.flagsKept
  | reset => exact absurd rfl hreset

/-- Settles O38. -/
theorem onlyResetClearsTheFlags : Obligations.OnlyResetClearsTheFlags := by
  intro s t hstep hreset
  rcases step_serves hstep with ⟨_, rfl⟩ | ⟨e, rest, hport, hserves⟩
  · exact FlagsKept.refl t
  · exact hserves.flagsKept fun he => hreset rest (he ▸ hport)

/-- If only commands that are `ok` change the part `f` of the state when they succeed, and neither the host's side, a byte
write nor a raise touches it, then a step that changes it serves a reset or runs such a command. -/
theorem step_changes {α : Type} (f : State → α) {ok : Instr → Prop}
    (hok : ∀ {i u t}, Succeeds u i t → f t ≠ f u → ok i)
    (hhost : ∀ s port answers, f { s with port := port, answers := answers } = f s := by intros; rfl)
    (hbyte : ∀ a b s, f (writeByte a b s) = f s := by intros; rfl)
    (hraise : ∀ e s, f (raise e s) = f s := by intros; rfl)
    {s t : State} (hstep : step s = .next t) (hne : f t ≠ f s) :
    ∃ e rest, s.port = e :: rest ∧
      (e = .reset ∨ ∃ c i, e = .write 0x000 4 c ∧ decode c = .command i ∧ ok i) := by
  rcases step_serves hstep with ⟨_, rfl⟩ | ⟨e, rest, hport, hserves⟩
  · exact absurd rfl hne
  have hserved : f { s with port := rest } = f s := hhost s rest s.answers
  refine ⟨e, rest, hport, ?_⟩
  cases hserves with
  | read a n v => exact absurd (hhost s rest _) hne
  | writeStatus v => exact absurd hserved hne
  | writeByte a v _ => exact absurd ((hbyte ..).trans hserved) hne
  | raised c e _ => exact absurd ((hraise ..).trans hserved) hne
  | command c i t hdecode hsucceeds => exact .inr ⟨c, i, rfl, hdecode, hok hsucceeds (hserved ▸ hne)⟩
  | reset => exact .inl rfl

/-- Which commands, succeeding, can change the KeySet, the nonce, the keystream buffer and the counter. -/
theorem Succeeds.changes {i : Instr} {s t : State} (h : Succeeds s i t) :
    (t.keys ≠ s.keys → (∃ n, i = .ciphInit n) ∨ ∃ n k, i = .ctrInit n k) ∧
    (t.nonce ≠ s.nonce → ∃ n k, i = .ctrInit n k) ∧
    (t.ks ≠ s.ks → ∃ d n, i = streamInstr d n) ∧
    (t.ctr ≠ s.ctr → (∃ n k, i = .ctrInit n k) ∨ (∃ n, i = .ctrSeek n) ∨ ∃ d n, i = streamInstr d n) := by
  cases h with
  | ciphInit klen => exact ⟨fun _ => .inl ⟨klen, rfl⟩, absurd rfl, absurd rfl, absurd rfl⟩
  | ciphEnc _ | ciphDec _ =>
    rw [storeBlock_eq]
    exact ⟨absurd rfl, absurd rfl, absurd rfl, absurd rfl⟩
  | ctrInit klen =>
    exact ⟨fun _ => .inr ⟨klen, 16, rfl⟩, fun _ => ⟨klen, 16, rfl⟩, absurd rfl, fun _ => .inl ⟨klen, 16, rfl⟩⟩
  | stream decrypting dlen _ _ =>
    exact ⟨absurd (by simp), absurd (by simp), fun _ => ⟨decrypting, dlen, rfl⟩,
      fun _ => .inr (.inr ⟨decrypting, dlen, rfl⟩)⟩
  | ctrSeek clen _ _ => exact ⟨absurd rfl, absurd rfl, absurd rfl, fun _ => .inr (.inl ⟨clen, rfl⟩)⟩

/-- Settles O39. -/
theorem onlyTheseCommandsWriteTheSecrets : Obligations.OnlyTheseCommandsWriteTheSecrets := by
  intro s t hstep runs
  exact ⟨step_changes State.keys (fun h => h.changes.1) (hstep := hstep),
    step_changes State.nonce (fun h => h.changes.2.1) (hstep := hstep),
    step_changes State.ks (fun h => h.changes.2.2.1) (hstep := hstep),
    step_changes State.ctr (fun h => h.changes.2.2.2) (hstep := hstep)⟩

/-! ### What may be written (R42) -/

/-- A run of bytes writes `DBUF`, `KS`, `CTR` and `CUR` only (R164). -/
theorem ctrXor_eq (cfg : Config) (n : Nat) (s : State) :
    ctrXor cfg n s =
      { s with mem := (ctrXor cfg n s).mem, ks := (ctrXor cfg n s).ks, ctr := (ctrXor cfg n s).ctr,
               cur := (ctrXor cfg n s).cur } := by
  ext1 <;> simp

/-- As long as the buffered keystream lasts there is no refill, and each byte moves the cursor by one (R163). -/
theorem ctrXor_buffered (cfg : Config) (s : State) {n : Nat} (hn : n ≤ 24 - s.cur.toNat) :
    (ctrXor cfg n s).ks = s.ks ∧ (ctrXor cfg n s).ctr = s.ctr ∧ (ctrXor cfg n s).cur.toNat = s.cur.toNat + n := by
  induction n with
  | zero => exact ⟨rfl, rfl, rfl⟩
  | succ n ih =>
    obtain ⟨hks, hctr, hcur⟩ := ih (by omega)
    simp only [ctrXor, xorByte_ks, xorByte_ctr, xorByte_cur]
    rcases takeKeystream_cases cfg (ctrXor cfg n s) with ⟨_, h⟩ | ⟨hempty, _⟩
    · rw [h]
      exact ⟨hks, hctr, by simp only [BitVec.toNat_add, hcur, BitVec.toNat_ofNat]; omega⟩
    · omega

/-- The row of CIPH_ENC and CIPH_DEC (R42). -/
theorem storeBlock_writes (cfg : Config) (b : Vector Byte 24) (s : State) :
    succeed (storeBlock b s) = { s with mem := (storeBlock b s).mem, lastErr := .ok } ∧
      SameBytesOutside cfg 0x100 24 s (succeed (storeBlock b s)) :=
  ⟨congrArg succeed (storeBlock_eq b s), fun _ hx => readByte_storeBlock_outside cfg b s hx⟩

/-- The row of CTR_ENC and CTR_DEC (R42). -/
theorem ctrXor_writes (cfg : Config) (n : Nat) (s : State) :
    succeed (ctrXor cfg n s) =
        { s with mem := (ctrXor cfg n s).mem, ks := (ctrXor cfg n s).ks, ctr := (ctrXor cfg n s).ctr,
                 cur := (ctrXor cfg n s).cur, lastErr := .ok } ∧
      SameBytesOutside cfg 0x100 n s (succeed (ctrXor cfg n s)) ∧
      (n ≤ 24 - s.cur.toNat → (ctrXor cfg n s).ks = s.ks ∧ (ctrXor cfg n s).ctr = s.ctr) := by
  refine ⟨congrArg succeed (ctrXor_eq cfg n s), fun _ hx => readByte_ctrXor_outside cfg n s hx, fun hn => ?_⟩
  obtain ⟨hks, hctr, _⟩ := ctrXor_buffered cfg s hn
  exact ⟨hks, hctr⟩

/-- The row of a host write to a buffer byte (R42, R54). -/
theorem step_writeByte {a : Nat} {b : Byte} {rest : List HostEvent} {s : State}
    (hmapped : bufferByteAt Config.built a = true) (hport : s.port = Script.wr8 a b :: rest) :
    step s = .next (writeByte a b { s with port := rest }) := by
  have hbyte : (b.setWidth 32).setWidth 8 = b := by simp
  calc step s
    _ = memWrite Config.built exec a 1 (b.setWidth 32) { s with port := rest } := step_cons hport
    _ = .next (writeByte a ((b.setWidth 32).setWidth 8) { s with port := rest }) := memWrite_byte hmapped ..
    _ = .next (writeByte a b { s with port := rest }) := by rw [hbyte]

/-- A write to `STATUS` is taken off the port and does nothing else (R33). -/
theorem step_writeStatus {v : Word} {rest : List HostEvent} {s : State}
    (hport : s.port = .write statusAddr 4 v :: rest) : step s = .next { s with port := rest } :=
  (step_cons hport).trans (memWrite_status ..)

/-- Settles O41: a write to `CMD` is the word it writes (R32), and the word decodes. -/
theorem stepRunsTheDecodedCommand : Obligations.StepRunsTheDecodedCommand := by
  intro s c i rest hport hdecode
  calc step s
    _ = memWrite Config.built exec cmdAddr 4 c { s with port := rest } := step_cons hport
    _ = execWord exec c { s with port := rest } := memWrite_cmd ..
    _ = exec i { s with port := rest } := by simp only [execWord, hdecode]

/-- Settles O37: the rows of the commands, then those of the host's accesses. -/
theorem writeSets : Obligations.WriteSets := by
  refine ⟨fun i s t hexec hok => ?_, fun i s t hexec hfail => ?_, fun a b rest s hmapped hport => ?_,
    fun c rest s i hport hdecode => stepRunsTheDecodedCommand s c i rest hport hdecode,
    fun a n rest s t hport hstep => ?_, fun v rest s hport => step_writeStatus hport⟩
  · rcases exec_next hexec with ⟨e, herr, rfl⟩ | hsucceeds
    · exact absurd hok herr
    · cases hsucceeds with
      | ciphInit klen => rfl
      | ciphEnc _ | ciphDec _ => exact storeBlock_writes Config.built _ s
      | ctrInit klen => rfl
      | stream decrypting dlen _ _ => cases decrypting <;> exact ctrXor_writes Config.built dlen s
      | ctrSeek clen _ _ => rfl
  · rcases exec_next hexec with ⟨e, _, rfl⟩ | hsucceeds
    · rfl
    · exact absurd hsucceeds.lastErr hfail
  · refine ⟨_, step_writeByte hmapped hport, rfl, ?_, fun x hx => ?_⟩
    · rw [readByte_writeByte, if_pos rfl]
    · rw [readByte_writeByte, if_neg (by omega)]
      exact readByte_congr rfl rfl x
  · rw [step_cons hport] at hstep
    cases portEvent_serves hstep
    rfl

/-! ### What enters the KeySet -/

/-- The key operand is the bytes `KEYBUF[0 .. min(KLEN, 48) - 1]` and nothing else (R83). -/
theorem keyOperand_eq_of_keyBytes {cfg : Config} {klen : Nat} {s t : State}
    (h : ∀ i, i < min klen 48 → readByte cfg t (0x040 + i) = readByte cfg s (0x040 + i)) :
    keyOperand cfg klen t = keyOperand cfg klen s :=
  List.map_congr_left fun i hi => h i (List.mem_range.1 hi)

/-- The KeySet a successful CTR_INIT leaves (R165). -/
theorem ctrInit_keys (cfg : Config) (klen : Nat) (s : State) :
    (ctrInit cfg klen 16 s).keys = generateRoundKeys cfg (keyOperand cfg klen s) := by
  rcases ctrInit_cases cfg klen 16 s with ⟨hne, _⟩ | ⟨_, h⟩
  · exact absurd rfl hne
  · rw [h]

/-- Settles O52: both commands make the KeySet from the key operand alone. -/
theorem onlyTheKeyBytesEnterTheKeySet : Obligations.OnlyTheKeyBytesEnterTheKeySet := by
  intro klen nlen s t hbytes
  have hkey := keyOperand_eq_of_keyBytes hbytes
  refine ⟨⟨_, _, exec_ciphInit klen s, exec_ciphInit klen t, ?_⟩, ?_⟩
  · simp only [ciphInit, succeed_keys, keySetup_keys, hkey]
  · rintro rfl
    exact ⟨_, _, exec_ctrInit klen 16 s, exec_ctrInit klen 16 t, by rw [ctrInit_keys, ctrInit_keys, hkey]⟩

/-! ### STATUS and reset -/

/-- With every flag clear and no error `STATUS` is 0 (R33). -/
theorem status_eq_zero {s : State} (hkeyed : s.keyed = false) (hready : s.ctrReady = false) (hseen : s.errSeen = false)
    (herr : s.lastErr = .ok) : status s = 0#32 := by
  rw [status, hkeyed, hready, hseen, herr]
  rfl

theorem step_readStatus {rest : List HostEvent} {s : State} (hport : s.port = .read statusAddr 4 :: rest) :
    step s = .next { s with port := rest, answers := status s :: s.answers } :=
  step_cons hport

/-- The layout of `STATUS` (R33), checked on each of the 32 combinations of its fields. -/
theorem statusWord_fields : ∀ (code : BitVec 2) (seen ready keyed : Bool),
    let w := 0#26 ++ code ++ 0#1 ++ BitVec.ofBool seen ++ BitVec.ofBool ready ++ BitVec.ofBool keyed
    w.getLsbD 0 = keyed ∧ w.getLsbD 1 = ready ∧ w.getLsbD 2 = seen ∧ w.getLsbD 3 = false ∧ w.extractLsb' 4 2 = code ∧
      w.extractLsb' 6 26 = 0#26 := by
  decide

/-- Settles O40. -/
theorem statusLayout : Obligations.StatusLayout :=
  ⟨fun s => statusWord_fields s.lastErr.code s.errSeen s.ctrReady s.keyed,
    status_eq_zero reset_keyed reset_ctrReady reset_errSeen reset_lastErr,
    fun _ _ => step_readStatus, fun _ _ _ => step_writeStatus⟩

/-- Settles O46: the reset completes, and the fields it leaves are those of `resetEvent`. -/
theorem resetEventRestoresTheFlags : Obligations.ResetEventRestoresTheFlags := by
  intro s rest hport
  exact ⟨_, step_cons hport, resetEvent_keyed .., resetEvent_ctrReady .., resetEvent_lastErr .., resetEvent_errSeen ..,
    resetEvent_cur .., resetEvent_ctr ..,
    status_eq_zero (resetEvent_keyed ..) (resetEvent_ctrReady ..) (resetEvent_errSeen ..) (resetEvent_lastErr ..),
    resetEvent_port .., resetEvent_answers ..⟩

/-- Settles O47. -/
theorem resetStateFlags : Obligations.ResetStateFlags :=
  ⟨reset_keyed, reset_ctrReady, reset_lastErr, reset_errSeen, reset_cur, reset_ctr,
    status_eq_zero reset_keyed reset_ctrReady reset_errSeen reset_lastErr⟩

end Sys2Proof.Machine
end

