-- ==== Sys2Proof/Proofs/Memory.lean ====
section
/-!
PROOF. Memory and byte order (spec 20_memory.md): the byte-order helpers as sums and quotients (R56, R106), the host's
reads (R54, R59), and what a re-key leaves of a stream in progress (R66).
-/

namespace Sys2Proof.Machine

/-! ### Byte order -/

/-- Words side by side are digits of a number, the left one the more significant. -/
theorem toNat_append_eq_add {m n : Nat} (x : BitVec m) (y : BitVec n) : (x ++ y).toNat = x.toNat * 2 ^ n + y.toNat := by
  rw [BitVec.toNat_append, ← Nat.shiftLeft_add_eq_or_of_lt y.isLt, Nat.shiftLeft_eq]

theorem be32_toNat (b0 b1 b2 b3 : Byte) :
    (be32 b0 b1 b2 b3).toNat = b0.toNat * 2 ^ 24 + b1.toNat * 2 ^ 16 + b2.toNat * 2 ^ 8 + b3.toNat := by
  simp only [be32, toNat_append_eq_add]
  omega

/-- The byte at bit `i` of a word, as a quotient. -/
theorem toNat_extractByte {n : Nat} (x : BitVec n) (i : Nat) : (x.extractLsb' i 8).toNat = x.toNat / 2 ^ i % 256 := by
  rw [BitVec.extractLsb'_toNat, Nat.shiftRight_eq_div_pow]

theorem byte32_toNat (w : Word) (k : Fin 4) : (byte32 w k).toNat = w.toNat / 2 ^ (8 * (3 - k.val)) % 256 :=
  toNat_extractByte ..

theorem byte64_toNat (c : Count) (k : Fin 8) : (byte64 c k).toNat = c.toNat / 2 ^ (8 * (7 - k.val)) % 256 :=
  toNat_extractByte ..

@[simp] theorem bytes64_getElem (c : Count) (k : Nat) (h : k < 8) : (bytes64 c)[k] = byte64 c ⟨k, h⟩ :=
  Vector.getElem_ofFn ..

/-- `BE32` puts the bytes of a Word together again (R56). -/
theorem be32_byte32 (w : Word) : be32 (byte32 w 0) (byte32 w 1) (byte32 w 2) (byte32 w 3) = w := by
  apply BitVec.eq_of_toNat_eq
  have hw := w.isLt
  simp only [be32_toNat, byte32_toNat, Fin.coe_ofNat_eq_mod, Nat.reduceMod, Nat.reduceSub, Nat.reduceMul, Nat.reducePow]
  omega

theorem natOfBytes_append_singleton (bs : List Byte) (b : Byte) :
    natOfBytes (bs ++ [b]) = natOfBytes bs * 256 + b.toNat := by
  simp only [natOfBytes, List.foldl_append, List.foldl_cons, List.foldl_nil]

/-- The first `k` bytes of a counter spell its `8 * k` most significant bits (R56). -/
theorem natOfBytes_take_bytes64 (c : Count) {k : Nat} (hk : k ≤ 8) :
    natOfBytes ((bytes64 c).toList.take k) = c.toNat / 2 ^ (8 * (8 - k)) := by
  induction k with
  | zero => exact (Nat.div_eq_of_lt c.isLt).symm
  | succ k ih =>
    have hpow : 2 ^ (8 * (8 - k)) = 2 ^ (8 * (7 - k)) * 256 := by
      rw [show 8 * (8 - k) = 8 * (7 - k) + 8 by omega, Nat.pow_add]
    calc natOfBytes ((bytes64 c).toList.take (k + 1))
      _ = natOfBytes ((bytes64 c).toList.take k) * 256 + (byte64 c ⟨k, hk⟩).toNat := by
        rw [List.take_succ_eq_append_getElem (by simpa using hk), natOfBytes_append_singleton, Vector.getElem_toList,
          bytes64_getElem]
      _ = c.toNat / 2 ^ (8 * (7 - k)) / 256 * 256 + c.toNat / 2 ^ (8 * (7 - k)) % 256 := by
        rw [ih (by omega), hpow, Nat.div_div_eq_div_mul, byte64_toNat]
      _ = c.toNat / 2 ^ (8 * (8 - (k + 1))) := by
        rw [Nat.div_add_mod', Nat.succ_sub_succ]

/-- The bytes of a counter, read as a big-endian number, are the counter (R56). -/
theorem natOfBytes_bytes64 (c : Count) : natOfBytes (bytes64 c).toList = c.toNat := by
  have hall : (bytes64 c).toList.take 8 = (bytes64 c).toList := List.take_of_length_le (by simp)
  simpa [hall] using natOfBytes_take_bytes64 c (Nat.le_refl 8)

/-- Settles O2: a join is a sum of its digits, a split the quotient at its bit, and the one undoes the other. -/
theorem byteOrderIsBigEndian : Obligations.ByteOrderIsBigEndian := by
  refine ⟨be32_toNat, byte32_toNat, fun c k => ?_, be32_byte32, natOfBytes_bytes64⟩
  exact (congrArg BitVec.toNat (bytes64_getElem c k k.isLt)).trans (byte64_toNat c k)

/-! ### The host's reads -/

theorem memRead_cmd (cfg : Config) (s : State) : memRead cfg cmdAddr 4 s = .ok 0#32 := by
  rw [memRead, if_pos ⟨rfl, rfl⟩]

theorem memRead_byte {cfg : Config} {a : Nat} (hmapped : bufferByteAt cfg a = true) (s : State) :
    memRead cfg a 1 s = .ok ((readByte cfg s a).setWidth 32) := by
  rw [memRead, if_neg (by omega), if_neg (by omega), if_pos ⟨rfl, hmapped⟩]

/-- A read the port answers is taken off it and hands its value to the host; nothing else changes (R54). -/
theorem step_read {a n : Nat} {v : Word} {rest : List HostEvent} {s : State} (hport : s.port = .read a n :: rest)
    (hread : memRead Config.built a n { s with port := rest } = .ok v) :
    step s = .next { s with port := rest, answers := v :: s.answers } := by
  rw [step_cons hport]
  simp only [portEvent, hread]

/-- Settles O43: the three answers of R59 by `step_read`. Neither STATUS nor a buffer byte depends on what
is pending at the port. -/
theorem hostReadsAnswerAndChangeNothing : Obligations.HostReadsAnswerAndChangeNothing :=
  fun _ _ => ⟨fun hport => step_read hport (memRead_cmd ..), step_readStatus,
    fun _ hmapped hport => step_read hport (memRead_byte hmapped _)⟩

/-! ### The stream position, byte by byte -/

/-- The stream position is a matter of the KeySet, the nonce, `KS`, `CTR` and `CUR` (R172). -/
theorem StreamAt.congr {cfg : Config} {c0 : Count} {j : Nat} {s t : State} (h : StreamAt cfg c0 j s)
    (hkeys : t.keys = s.keys) (hnonce : t.nonce = s.nonce) (hctr : t.ctr = s.ctr) (hks : t.ks = s.ks)
    (hcur : t.cur = s.cur) : StreamAt cfg c0 j t := by
  simpa only [StreamAt, hkeys, hnonce, hctr, hks, hcur] using h

/-- At a block's start the unit refills: the byte taken is byte 0 of the block whose number is `CTR` (R162, R163). -/
theorem takeKeystream_of_empty (cfg : Config) {s : State} (hempty : s.cur = 24#5) :
    takeKeystream cfg s = ((keystreamBlock cfg s.keys s.nonce s.ctr)[0], { refill cfg s with cur := 1#5 }) := by
  rcases takeKeystream_cases cfg s with ⟨hlt, _⟩ | ⟨_, h⟩
  · simp [hempty] at hlt
  · exact h

/-- Inside a block the byte taken is the one at the cursor, which moves by one (R163). -/
theorem takeKeystream_of_buffered (cfg : Config) {s : State} {r : Nat} (hcur : s.cur.toNat = r) (hr : r < 24) :
    takeKeystream cfg s = (s.ks[r], { s with cur := s.cur + 1#5 }) := by
  subst hcur
  exact dif_pos hr

/-- Between two blocks the buffer is empty and `CTR` is the next block's number (R172). -/
theorem streamAt_between {cfg : Config} {c0 : Count} {j : Nat} {s : State} (hj : j % 24 = 0) :
    StreamAt cfg c0 j s ↔ s.cur = 24#5 ∧ s.ctr = c0 + BitVec.ofNat 64 (j / 24) := by
  rw [StreamAt, if_pos hj]

/-- Inside a block `CUR` of its bytes are used, `KS` holds it and `CTR` is one ahead (R172). -/
theorem streamAt_inside {cfg : Config} {c0 : Count} {j : Nat} {s : State} (hj : j % 24 ≠ 0) :
    StreamAt cfg c0 j s ↔ s.cur = BitVec.ofNat 5 (j % 24) ∧ s.ctr = c0 + BitVec.ofNat 64 (j / 24) + 1#64 ∧
      s.ks = keystreamBlock cfg s.keys s.nonce (c0 + BitVec.ofNat 64 (j / 24)) := by
  rw [StreamAt, if_neg hj]

theorem toNat_blockOffset (j : Nat) : (BitVec.ofNat 5 (j % 24)).toNat = j % 24 :=
  (BitVec.toNat_ofNat ..).trans (Nat.mod_eq_of_lt (by omega))

/-- At byte `j` of the logical keystream the unit takes byte `j` (R171) and moves to byte `j + 1` (R172). -/
theorem StreamAt.takeKeystream {cfg : Config} {c0 : Count} {j : Nat} {s : State} (h : StreamAt cfg c0 j s) :
    (Machine.takeKeystream cfg s).1 = logicalByte cfg s.keys s.nonce c0 j ∧
      StreamAt cfg c0 (j + 1) (Machine.takeKeystream cfg s).2 := by
  by_cases hj : j % 24 = 0
  · obtain ⟨hcur, hctr⟩ := (streamAt_between hj).1 h
    have hnext : (j + 1) % 24 = 1 := by omega
    have hblock : (j + 1) / 24 = j / 24 := by omega
    rw [takeKeystream_of_empty cfg hcur, streamAt_inside (by omega), hnext, hblock]
    refine ⟨by simp only [logicalByte, hctr, hj], rfl, congrArg (· + 1#64) hctr, ?_⟩
    exact congrArg (keystreamBlock cfg s.keys s.nonce) hctr
  · obtain ⟨hcur, hctr, hks⟩ := (streamAt_inside hj).1 h
    have hcurNat : s.cur.toNat = j % 24 := by rw [hcur, toNat_blockOffset]
    rw [takeKeystream_of_buffered cfg hcurNat (by omega)]
    refine ⟨by simp only [logicalByte, hks], ?_⟩
    by_cases hlast : (j + 1) % 24 = 0
    · have hblock : (j + 1) / 24 = j / 24 + 1 := by omega
      refine (streamAt_between hlast).2 ⟨?_, ?_⟩
      · have hr : j % 24 = 23 := by omega
        simp only [hcur, hr]
        rfl
      · simp only [hctr, hblock, BitVec.ofNat_add, BitVec.add_assoc]
    · have hnext : (j + 1) % 24 = j % 24 + 1 := by omega
      have hblock : (j + 1) / 24 = j / 24 := by omega
      rw [streamAt_inside hlast, hblock]
      exact ⟨by simp only [hcur, hnext, BitVec.ofNat_add], hctr, hks⟩

/-- Processing a byte of the buffers moves the position as taking its keystream byte does. -/
theorem StreamAt.xorByte {cfg : Config} {c0 : Count} {j : Nat} {s : State} (h : StreamAt cfg c0 j s) (i : Nat) :
    StreamAt cfg c0 (j + 1) (Machine.xorByte cfg i s) :=
  h.takeKeystream.2.congr (by simp) (by simp) (xorByte_ctr ..) (xorByte_ks ..) (xorByte_cur ..)

/-- Once the `24 - CUR` buffered bytes are used up, a run of bytes stands in the logical keystream that starts at the
counter it found (R163, R171). -/
theorem ctrXor_streamAt (cfg : Config) {s : State} (hcur : s.cur.toNat ≤ 24) {k : Nat} (hk : 24 ≤ s.cur.toNat + k) :
    StreamAt cfg s.ctr (s.cur.toNat + k - 24) (ctrXor cfg k s) := by
  have hle : 24 - s.cur.toNat ≤ k := by omega
  induction k, hle using Nat.le_induction with
  | base =>
    obtain ⟨_, hctr, hused⟩ := ctrXor_buffered cfg s (Nat.le_refl (24 - s.cur.toNat))
    have hstart : s.cur.toNat + (24 - s.cur.toNat) - 24 = 0 := by omega
    rw [hstart, streamAt_between rfl]
    refine ⟨BitVec.eq_of_toNat_eq ?_, by simp [hctr]⟩
    rw [hused]
    exact Nat.add_sub_of_le hcur
  | succ k hle ih =>
    have hnext : s.cur.toNat + (k + 1) - 24 = s.cur.toNat + k - 24 + 1 := by omega
    rw [hnext]
    exact (ih (by omega)).xorByte k

/-- The keystream byte a run takes at turn `k`: what is left in the buffer first, then the logical keystream from the
run's counter on, under the run's own KeySet and nonce (R163, R171). -/
theorem takeKeystream_ctrXor (cfg : Config) {s : State} (hcur : s.cur.toNat ≤ 24) (k : Nat) :
    (takeKeystream cfg (ctrXor cfg k s)).1 =
      if h : s.cur.toNat + k < 24 then s.ks[s.cur.toNat + k]
      else logicalByte cfg s.keys s.nonce s.ctr (s.cur.toNat + k - 24) := by
  split
  · next h =>
    obtain ⟨hks, _, hused⟩ := ctrXor_buffered cfg s (n := k) (by omega)
    simp only [takeKeystream_of_buffered cfg hused h, hks]
  · next h => simpa using (ctrXor_streamAt cfg hcur (by omega)).takeKeystream.1

/-! ### A re-key in mid-stream -/

/-- CIPH_INIT writes nothing of the mode unit (R66, R221). -/
theorem ciphInit_sameMode (cfg : Config) (klen : Nat) (s : State) : SameMode s (ciphInit cfg klen s) := by
  simp [SameMode, ciphInit]

theorem ciphInit_keys (cfg : Config) (klen : Nat) (s : State) :
    (ciphInit cfg klen s).keys = generateRoundKeys cfg (keyOperand cfg klen s) := by
  simp [ciphInit]

theorem readByte_ciphInit (cfg : Config) (klen : Nat) (s : State) (a : Nat) :
    readByte cfg (ciphInit cfg klen s) a = readByte cfg s a := by
  simp [ciphInit]

/-- A stream command that passes its checks is the run of bytes (R166). -/
theorem streamCommand_of_ready (cfg : Config) {dlen : Nat} {s : State} (hready : s.ctrReady = true)
    (hlen : dlen ≤ cfg.dbufBytes) : streamCommand cfg dlen s = succeed (ctrXor cfg dlen s) := by
  rcases streamCommand_cases cfg dlen s with ⟨hnot, _⟩ | ⟨_, hlong, _⟩ | ⟨_, _, h⟩
  · simp [hready] at hnot
  · omega
  · exact h

/-- Settles O33: the mode unit is as before the re-key, so the run takes the same buffered bytes; the blocks it makes
itself are made under the KeySet that the re-key left. -/
theorem rekeyKeepsBufferedKeystream : Obligations.RekeyKeepsBufferedKeystream := by
  intro klen n s hready hcur hlen
  have hmode := ciphInit_sameMode Config.built klen s
  refine ⟨_, _, exec_ciphInit klen s, hmode, exec_ctrEnc n _, fun k hk => ?_⟩
  obtain ⟨hnonce, hctr, hks, hcurEq, hreadyEq⟩ := hmode
  rw [ctrEnc, streamCommand_of_ready _ (hreadyEq.trans hready) hlen, readByte_succeed]
  refine (readByte_ctrXor_inside Config.built n _ hk).trans ?_
  rw [takeKeystream_ctrXor Config.built (hcurEq ▸ hcur), readByte_ciphInit]
  simp only [hcurEq, hks, hnonce, hctr, ciphInit_keys]
  rfl

end Sys2Proof.Machine
end

