-- ==== Sys2Proof/Proofs/Encoding.lean ====
section
/-!
PROOF. The command encoding (spec 30_encoding.md R80 to R88). The one fact the rest is read from is
`decode_eq_command_iff`: a word decodes to a command exactly when its four fields spell that command.
-/

namespace Sys2Proof.Machine

/-! ### The fields of a word, as digits of a number (R80) -/

theorem fieldOp_toNat (w : Word) : (fieldOp w).toNat = w.toNat % 16 := by
  rw [fieldOp, BitVec.extractLsb'_toNat, Nat.shiftRight_zero]

theorem fieldRsv_toNat (w : Word) : (fieldRsv w).toNat = w.toNat / 2 ^ 4 % 16 := by
  rw [fieldRsv, BitVec.extractLsb'_toNat, Nat.shiftRight_eq_div_pow]

theorem fieldLen_toNat (w : Word) : (fieldLen w).toNat = w.toNat / 2 ^ 8 % 65536 := by
  rw [fieldLen, BitVec.extractLsb'_toNat, Nat.shiftRight_eq_div_pow]

/-- Nothing lies above `NLEN`, so the quotient is the field. -/
theorem fieldNlen_toNat (w : Word) : (fieldNlen w).toNat = w.toNat / 2 ^ 24 := by
  rw [fieldNlen, toNat_extractByte, Nat.mod_eq_of_lt (by have := w.isLt; omega)]

theorem word_toNat_eq_fields (w : Word) :
    w.toNat = (fieldOp w).toNat + 16 * (fieldRsv w).toNat + 256 * (fieldLen w).toNat +
      2 ^ 24 * (fieldNlen w).toNat := by
  simp only [fieldOp_toNat, fieldRsv_toNat, fieldLen_toNat, fieldNlen_toNat]
  omega

/-- A word is its four fields. -/
theorem word_eq_iff_fields {v w : Word} :
    v = w ↔ fieldOp v = fieldOp w ∧ fieldRsv v = fieldRsv w ∧ fieldLen v = fieldLen w ∧ fieldNlen v = fieldNlen w := by
  constructor
  · rintro rfl
    exact ⟨rfl, rfl, rfl, rfl⟩
  · rintro ⟨hop, hrsv, hlen, hnlen⟩
    apply BitVec.eq_of_toNat_eq
    rw [word_toNat_eq_fields v, word_toNat_eq_fields w, hop, hrsv, hlen, hnlen]

theorem fieldOp_and (v w : Word) : fieldOp (v &&& w) = fieldOp v &&& fieldOp w := BitVec.extractLsb'_and
theorem fieldRsv_and (v w : Word) : fieldRsv (v &&& w) = fieldRsv v &&& fieldRsv w := BitVec.extractLsb'_and
theorem fieldLen_and (v w : Word) : fieldLen (v &&& w) = fieldLen v &&& fieldLen w := BitVec.extractLsb'_and
theorem fieldNlen_and (v w : Word) : fieldNlen (v &&& w) = fieldNlen v &&& fieldNlen w := BitVec.extractLsb'_and

/-! ### The fields a command asks for -/

/-- The length fields of a well-formed command fit their fields of the word (R80). -/
theorem wellFormed_iff (i : Instr) : i.wellFormed = true ↔ i.lenField < 65536 ∧ i.nlenField < 256 := by
  cases i <;> simp [Instr.wellFormed, Instr.lenField, Instr.nlenField, lenFits, nlenFits]

/-- Only CTR_INIT has a nonce operand (R81). -/
theorem nlenField_eq_zero {i : Instr} (h : i.mnemonic ≠ .ctrInit) : i.nlenField = 0 := by
  cases i with
  | ctrInit klen nlen => exact absurd rfl h
  | _ => rfl

/-- A mnemonic with any two length fields, the second kept where the format has one (R81), is a command. -/
theorem exists_instr_of_fields (m : Mnemonic) (len nlen : Nat) (h : m ≠ .ctrInit → nlen = 0) :
    ∃ i : Instr, i.mnemonic = m ∧ i.lenField = len ∧ i.nlenField = nlen := by
  cases m with
  | ciphInit => exact ⟨.ciphInit len, rfl, rfl, (h nofun).symm⟩
  | ciphEnc => exact ⟨.ciphEnc len, rfl, rfl, (h nofun).symm⟩
  | ciphDec => exact ⟨.ciphDec len, rfl, rfl, (h nofun).symm⟩
  | ctrInit => exact ⟨.ctrInit len nlen, rfl, rfl, rfl⟩
  | ctrEnc => exact ⟨.ctrEnc len, rfl, rfl, (h nofun).symm⟩
  | ctrDec => exact ⟨.ctrDec len, rfl, rfl, (h nofun).symm⟩
  | ctrSeek => exact ⟨.ctrSeek len, rfl, rfl, (h nofun).symm⟩

/-- The fields of `w` are those of the command `i`, `RSV` being 0 (R80 to R83). -/
structure Spells (w : Word) (i : Instr) : Prop where
  op : fieldOp w = opcodeOf i.mnemonic
  rsv : fieldRsv w = 0#4
  len : (fieldLen w).toNat = i.lenField
  nlen : (fieldNlen w).toNat = i.nlenField

/-- A command is spelled by one word only. -/
theorem Spells.word_unique {v w : Word} {i : Instr} (hv : Spells v i) (hw : Spells w i) : v = w :=
  word_eq_iff_fields.2 ⟨hv.op.trans hw.op.symm, hv.rsv.trans hw.rsv.symm,
    BitVec.eq_of_toNat_eq (hv.len.trans hw.len.symm), BitVec.eq_of_toNat_eq (hv.nlen.trans hw.nlen.symm)⟩

theorem Spells.wellFormed {w : Word} {i : Instr} (h : Spells w i) : i.wellFormed = true :=
  (wellFormed_iff i).2 ⟨h.len ▸ (fieldLen w).isLt, h.nlen ▸ (fieldNlen w).isLt⟩

/-- The commands of one mnemonic: a word spells one of them when `OP` is right and every field that must be 0 is. -/
theorem exists_spells_iff (w : Word) (m : Mnemonic) :
    (∃ i, Spells w i ∧ i.mnemonic = m) ↔
      fieldOp w = opcodeOf m ∧ fieldRsv w = 0#4 ∧ (m ≠ .ctrInit → fieldNlen w = 0#8) := by
  constructor
  · rintro ⟨i, hspells, rfl⟩
    exact ⟨hspells.op, hspells.rsv, fun hm => BitVec.eq_of_toNat_eq (hspells.nlen.trans (nlenField_eq_zero hm))⟩
  · rintro ⟨hop, hrsv, hnlen⟩
    obtain ⟨i, rfl, hleni, hnleni⟩ :=
      exists_instr_of_fields m (fieldLen w).toNat (fieldNlen w).toNat fun hm => congrArg BitVec.toNat (hnlen hm)
    exact ⟨i, ⟨hop, hrsv, hleni.symm, hnleni.symm⟩, rfl⟩

/-! ### The encoder -/

theorem encode_toNat (i : Instr) :
    (encode i).toNat =
      (opcodeOf i.mnemonic).toNat + 256 * (i.lenField % 65536) + 2 ^ 24 * (i.nlenField % 256) := by
  simp only [encode, toNat_append_eq_add, BitVec.toNat_ofNat]
  omega

/-- The word of a well-formed command spells it. -/
theorem spells_encode {i : Instr} (hwf : i.wellFormed = true) : Spells (encode i) i := by
  obtain ⟨hlen, hnlen⟩ := (wellFormed_iff i).1 hwf
  have hop := (opcodeOf i.mnemonic).isLt
  have hword := encode_toNat i
  constructor
  case op => apply BitVec.eq_of_toNat_eq; rw [fieldOp_toNat]; omega
  case rsv => apply BitVec.eq_of_toNat_eq; rw [fieldRsv_toNat, BitVec.toNat_ofNat]; omega
  case len => rw [fieldLen_toNat]; omega
  case nlen => rw [fieldNlen_toNat]; omega

/-! ### The decoder -/

theorem withReservedZero_eq_command_iff {w : Word} {i j : Instr} :
    withReservedZero w i = .command j ↔ fieldRsv w = 0#4 ∧ i = j := by
  by_cases hrsv : fieldRsv w = 0#4 <;> simp [withReservedZero, hrsv]

theorem withoutNonce_eq_command_iff {w : Word} {i j : Instr} :
    withoutNonce w i = .command j ↔ fieldRsv w = 0#4 ∧ fieldNlen w = 0#8 ∧ i = j := by
  by_cases hnlen : fieldNlen w = 0#8
  · simp [withoutNonce, hnlen, withReservedZero_eq_command_iff]
  · by_cases hrsv : fieldRsv w = 0#4 <;> simp [withoutNonce, withReservedZero, hnlen, hrsv]

/-- What the arm of a command without a nonce lets through, its fields spell. -/
theorem spells_of_withoutNonce {w : Word} {i j : Instr} (h : withoutNonce w i = .command j)
    (hop : (fieldOp w).toNat = (opcodeOf i.mnemonic).toNat) (hlen : (fieldLen w).toNat = i.lenField)
    (hzero : 0 = i.nlenField) : Spells w j := by
  obtain ⟨hrsv, hnlen, rfl⟩ := withoutNonce_eq_command_iff.1 h
  exact ⟨BitVec.eq_of_toNat_eq hop, hrsv, hlen, (congrArg BitVec.toNat hnlen).trans hzero⟩

/-- The cases are the decoder's arms, by opcode. -/
theorem spells_of_decode {w : Word} {j : Instr} (h : decode w = .command j) : Spells w j := by
  unfold decode at h
  split at h
  case h_1 hop | h_2 hop | h_3 hop | h_5 hop | h_6 hop | h_7 hop => exact spells_of_withoutNonce h hop rfl rfl
  case h_4 hop =>
    obtain ⟨hrsv, rfl⟩ := withReservedZero_eq_command_iff.1 h
    exact ⟨BitVec.eq_of_toNat_eq hop, hrsv, rfl, rfl⟩
  case h_8 => cases h

theorem decode_of_spells {w : Word} {i : Instr} (h : Spells w i) : decode w = .command i := by
  obtain ⟨hop, hrsv, hlen, hnlen⟩ := h
  have plain {j : Instr} (hzero : i.nlenField = 0) (hj : j = i) : withoutNonce w j = .command i :=
    withoutNonce_eq_command_iff.2 ⟨hrsv, BitVec.eq_of_toNat_eq (hnlen.trans hzero), hj⟩
  unfold decode
  rw [hop]
  cases i with
  | ciphInit n => exact plain rfl (congrArg _ hlen)
  | ciphEnc n => exact plain rfl (congrArg _ hlen)
  | ciphDec n => exact plain rfl (congrArg _ hlen)
  | ctrInit n m => exact withReservedZero_eq_command_iff.2 ⟨hrsv, congrArg₂ _ hlen hnlen⟩
  | ctrEnc n => exact plain rfl (congrArg _ hlen)
  | ctrDec n => exact plain rfl (congrArg _ hlen)
  | ctrSeek n => exact plain rfl (congrArg _ hlen)

theorem decode_eq_command_iff {w : Word} {i : Instr} : decode w = .command i ↔ Spells w i :=
  ⟨spells_of_decode, decode_of_spells⟩

/-- A word is a command or illegal, never both (R85, R87). -/
theorem decode_illegal_iff (w : Word) : (∃ why, decode w = .illegal why) ↔ ¬ ∃ i, decode w = .command i := by
  cases decode w <;> simp

/-- Settles O56: the word of a well-formed command spells it, and only that word does. -/
theorem decodeAndEncodeAreInverse : Obligations.DecodeAndEncodeAreInverse := by
  refine ⟨fun i hwf => decode_of_spells (spells_encode hwf), fun w i hdecode => ?_⟩
  have hspells := spells_of_decode hdecode
  exact ⟨hspells.wellFormed, (spells_encode hspells.wellFormed).word_unique hspells⟩

/-- Settles O55: the lengths of a well-formed command fit their fields, so the encoder cuts nothing off. -/
theorem encodedWordIsTheFieldSum : Obligations.EncodedWordIsTheFieldSum := by
  intro i hwf
  obtain ⟨hlen, hnlen⟩ := (wellFormed_iff i).1 hwf
  rw [encode_toNat, Nat.mod_eq_of_lt hlen, Nat.mod_eq_of_lt hnlen]

/-! ### The match and mask table (R86) -/

theorem exists_row_of_mnemonic (m : Mnemonic) : ∃ r ∈ encodingTable, r.mnemonic = m := by
  cases m <;> decide

/-- The opcodes that stand for a command are `1 .. 7` (R82). -/
theorem exists_opcode_iff (op : BitVec 4) : (∃ m, op = opcodeOf m) ↔ op.toNat ≠ 0 ∧ op.toNat < 8 := by
  have hrows : ∀ op : BitVec 4, op.toNat ≠ 0 ∧ op.toNat < 8 → ∃ r ∈ encodingTable, op = opcodeOf r.mnemonic := by
    decide
  constructor
  · rintro ⟨m, rfl⟩
    cases m <;> decide
  · intro hop
    obtain ⟨r, _, hr⟩ := hrows op hop
    exact ⟨r.mnemonic, hr⟩

theorem opcodeOf_eq_four_iff (m : Mnemonic) : (opcodeOf m).toNat = 4 ↔ m = .ctrInit := by
  cases m <;> decide

/-- The fields of a word that holds an opcode only. -/
theorem fields_setWidth_opcode (op : BitVec 4) :
    fieldOp (op.setWidth 32) = op ∧ fieldRsv (op.setWidth 32) = 0#4 ∧ fieldLen (op.setWidth 32) = 0#16 ∧
      fieldNlen (op.setWidth 32) = 0#8 := by
  revert op
  decide

/-- The pattern of each row is its opcode; its mask looks at all of `OP` and `RSV`, at nothing of `LEN`, and at `NLEN`
unless it is the row of CTR_INIT (R86). -/
theorem row_fields : ∀ r ∈ encodingTable, r.pattern = (opcodeOf r.mnemonic).setWidth 32 ∧
    fieldOp r.mask = BitVec.allOnes 4 ∧ fieldRsv r.mask = BitVec.allOnes 4 ∧ fieldLen r.mask = 0#16 ∧
    fieldNlen r.mask = if r.mnemonic = .ctrInit then 0#8 else BitVec.allOnes 8 := by
  decide

/-- A row asks for its opcode, for `RSV = 0`, and for `NLEN = 0` unless it is the row of CTR_INIT. -/
theorem matchesWord_iff {r : EncodingRow} (hr : r ∈ encodingTable) (w : Word) :
    r.matchesWord w = true ↔
      fieldOp w = opcodeOf r.mnemonic ∧ fieldRsv w = 0#4 ∧ (r.mnemonic ≠ .ctrInit → fieldNlen w = 0#8) := by
  obtain ⟨hpattern, hop, hrsv, hlen, hnlen⟩ := row_fields r hr
  obtain ⟨hopp, hrsvp, hlenp, hnlenp⟩ := fields_setWidth_opcode (opcodeOf r.mnemonic)
  rw [EncodingRow.matchesWord, beq_iff_eq, hpattern, word_eq_iff_fields, hopp, hrsvp, hlenp, hnlenp]
  simp only [fieldOp_and, fieldRsv_and, fieldLen_and, fieldNlen_and, hop, hrsv, hlen, hnlen,
    BitVec.and_allOnes, BitVec.and_zero]
  by_cases hm : r.mnemonic = .ctrInit
  · simp [hm]
  · rw [if_neg hm, BitVec.and_allOnes]
    simp [hm]

/-- A row selects its command (R86). -/
theorem matchesWord_iff_decode {r : EncodingRow} (hr : r ∈ encodingTable) (w : Word) :
    r.matchesWord w = true ↔ ∃ i, decode w = .command i ∧ i.mnemonic = r.mnemonic := by
  simp only [decode_eq_command_iff, exists_spells_iff, matchesWord_iff hr]

/-- "The seven rows are disjoint because their low bytes differ" (R86). -/
theorem rows_opcode_ne : encodingTable.Pairwise fun r q => opcodeOf r.mnemonic ≠ opcodeOf q.mnemonic := by
  decide

/-- Settles O54: a row and the decoder ask for the same fields, no two rows ask for the same `OP`, and every command has
a row. -/
theorem decodeAgreesWithTheMatchTable : Obligations.DecodeAgreesWithTheMatchTable := by
  refine ⟨fun r hr w => matchesWord_iff_decode hr w, ?_, fun w hnone => ?_⟩
  · refine rows_opcode_ne.imp_of_mem fun hr hq hne w hboth => hne ?_
    obtain ⟨hrop, _⟩ := (matchesWord_iff hr w).1 hboth.1
    obtain ⟨hqop, _⟩ := (matchesWord_iff hq w).1 hboth.2
    exact hrop.symm.trans hqop
  · rw [decode_illegal_iff]
    rintro ⟨i, hdecode⟩
    obtain ⟨r, hr, hm⟩ := exists_row_of_mnemonic i.mnemonic
    have hmatch := (matchesWord_iff_decode hr w).2 ⟨i, hdecode, hm.symm⟩
    rw [hnone r hr] at hmatch
    cases hmatch

/-! ### The illegal words (R85) -/

theorem decode_legal_iff (w : Word) :
    (∃ i, decode w = .command i) ↔
      (fieldOp w).toNat ≠ 0 ∧ (fieldOp w).toNat < 8 ∧ (fieldRsv w).toNat = 0 ∧
        ((fieldOp w).toNat ≠ 4 → (fieldNlen w).toNat = 0) := by
  simp only [decode_eq_command_iff]
  constructor
  · rintro ⟨i, hspells⟩
    obtain ⟨hne, hlt⟩ := (exists_opcode_iff _).1 ⟨_, hspells.op⟩
    refine ⟨hne, hlt, congrArg BitVec.toNat hspells.rsv, fun hop => hspells.nlen.trans (nlenField_eq_zero ?_)⟩
    rwa [hspells.op, ne_eq, opcodeOf_eq_four_iff] at hop
  · rintro ⟨hne, hlt, hrsv, hnlen⟩
    obtain ⟨m, hm⟩ := (exists_opcode_iff _).2 ⟨hne, hlt⟩
    rw [hm, ne_eq, opcodeOf_eq_four_iff] at hnlen
    obtain ⟨i, hspells, _⟩ := (exists_spells_iff w m).2
      ⟨hm, BitVec.eq_of_toNat_eq hrsv, fun h => BitVec.eq_of_toNat_eq (hnlen h)⟩
    exact ⟨i, hspells⟩

/-- Settles O53: the complement of `decode_legal_iff`, the fields written as quotients. -/
theorem illegalWordsAreTheReservedOnes : Obligations.IllegalWordsAreTheReservedOnes := by
  intro w
  rw [decode_illegal_iff, decode_legal_iff, fieldOp_toNat, fieldRsv_toNat, fieldNlen_toNat]
  omega

/-- Settles O57, by running the decoder and the encoder on the words of R88. -/
theorem workedEncodings : Obligations.WorkedEncodings := by
  unfold Obligations.WorkedEncodings
  decide

end Sys2Proof.Machine
end

