-- ==== Sys2Proof/Proofs/RoundFunctions.lean ====
section
/-!
PROOF. Word rotation and the round functions (spec 40_round_functions.md): the rotation as a multiplication that wraps
(R104), and F1 to F6 as R116 tabulates them.
-/

namespace Sys2Proof.Machine

/-! ### Rotation (R104) -/

/-- The bits that stay inside the Word end `n` places higher, so the `n` bits that re-enter fit below them and the join
of the two parts is their sum. The formula holds for amount 0 as well. -/
theorem rotl32_toNat (a : Word) (n : Rot) :
    (rotl32 a n).toNat = a.toNat * 2 ^ n.toNat % 2 ^ 32 + a.toNat / 2 ^ (32 - n.toNat) := by
  have hn : n.toNat < 32 := n.isLt
  have hpow : 2 ^ 32 = 2 ^ (32 - n.toNat) * 2 ^ n.toNat := by rw [← Nat.pow_add, Nat.sub_add_cancel hn.le]
  have hwrap : a.toNat * 2 ^ n.toNat % 2 ^ 32 = (a.toNat % 2 ^ (32 - n.toNat)) <<< n.toNat := by
    rw [hpow, Nat.mul_mod_mul_right, Nat.shiftLeft_eq]
  have hreenter : a.toNat / 2 ^ (32 - n.toNat) < 2 ^ n.toNat := Nat.div_lt_of_lt_mul (hpow ▸ a.isLt)
  rw [rotl32, BitVec.toNat_rotateLeft, Nat.mod_eq_of_lt hn, Nat.shiftLeft_eq, Nat.shiftRight_eq_div_pow, hwrap,
    Nat.shiftLeft_add_eq_or_of_lt hreenter]

@[simp] theorem rotl32_zero (a : Word) : rotl32 a 0#5 = a := by
  apply BitVec.eq_of_toNat_eq
  rw [rotl32_toNat, BitVec.toNat_ofNat, Nat.zero_mod, Nat.pow_zero, Nat.mul_one, Nat.sub_zero, Nat.mod_eq_of_lt a.isLt,
    Nat.div_eq_of_lt a.isLt, Nat.add_zero]

/-- A Word whose bits are all alike is every rotation of itself. -/
theorem rotl32_of_bits_eq {a : Word} {b : Bool} (h : ∀ (i : Nat) (hi : i < 32), a[i] = b) (n : Rot) :
    rotl32 a n = a := by
  apply BitVec.eq_of_getElem_eq
  intro i hi
  rw [rotl32, BitVec.getElem_rotateLeft, h i hi]
  split <;> exact h _ _

/-- Settles O1: the formula of `rotl32_toNat`, the two Words with all bits alike, and the examples by evaluation. -/
theorem rotateLeftIsMultiplyAndWrap : Obligations.RotateLeftIsMultiplyAndWrap := by
  refine ⟨fun a n _ => rotl32_toNat a n, rotl32_zero, fun n => ⟨?_, ?_⟩, by decide⟩
  · exact rotl32_of_bits_eq (b := true) (fun _ hi => BitVec.getElem_allOnes _ hi) n
  · exact rotl32_of_bits_eq (b := false) (fun _ hi => BitVec.getElem_zero hi) n

/-! ### The round functions (R108 to R116) -/

/-- The shape all six functions share (R108): rotate the combined key, look each byte of the result up in its own table
and combine the four Words. -/
theorem roundF_eq (cfg : Config) (f : RoundFn) (d km : Word) (kr : Rot) :
    roundF cfg f d km kr =
      (let r := rotl32 (combineKey cfg f d km) kr
       combineLookups cfg f (cfg.sbox .s1 (byte32 r 0)) (cfg.sbox .s2 (byte32 r 1)) (cfg.sbox .s3 (byte32 r 2))
        (cfg.sbox .s4 (byte32 r 3))) := rfl

/-- Step 1 of F3 and F4 subtracts in the order `F_SUB_ORDER` names (R8, R109). -/
theorem combineKey_subtract (cfg : Config) {f : RoundFn} (hf : f = .f3 ∨ f = .f4) (d km : Word) :
    combineKey cfg f d km = if cfg.fSubOrder = .dMinusKm then d - km else km - d := by
  cases h : cfg.fSubOrder with
  | dMinusKm => rcases hf with rfl | rfl <;> simp [combineKey, h]
  | kmMinusD => rcases hf with rfl | rfl <;> simp [combineKey, h]

/-- F3 groups as `F_GROUPING` says (R9, R112). -/
theorem combineLookups_f3 (cfg : Config) (a b c e : Word) :
    combineLookups cfg .f3 a b c e =
      if cfg.fGrouping = .leftToRight then ((a + b) ^^^ c) - e else (a + b) ^^^ (c - e) := by
  cases h : cfg.fGrouping <;> simp [combineLookups, h]

/-- F5 groups as `F_GROUPING` says (R9, R114). -/
theorem combineLookups_f5 (cfg : Config) (a b c e : Word) :
    combineLookups cfg .f5 a b c e =
      if cfg.fGrouping = .leftToRight then ((a - b) ^^^ c) + e else (a - b) ^^^ (c + e) := by
  cases h : cfg.fGrouping <;> simp [combineLookups, h]

/-- Settles O3: F1, F2 and F6 depend on no parameter but the tables, so their rows are the definition itself; F3 and F4
read `F_SUB_ORDER`, F3 and F5 read `F_GROUPING`. -/
theorem roundFunctionsAreAsTabled : Obligations.RoundFunctionsAreAsTabled := by
  intro cfg d km kr
  refine ⟨rfl, rfl, ?f3, ?f4, ?f5, rfl⟩
  case f3 => rw [roundF_eq, combineKey_subtract cfg (.inl rfl), combineLookups_f3]
  case f4 => rw [roundF_eq, combineKey_subtract cfg (.inr rfl)]; rfl
  case f5 => rw [roundF_eq, combineLookups_f5]; rfl

end Sys2Proof.Machine
end

