-- ==== Sys2Proof/Proofs/KeySchedule.lean ====
section
/-!
PROOF. The key schedule (spec 41_key_schedule.md): the schedule constants, DODECAD, key packing, the one cumulative block
behind the round keys, the consequences R131 and R133, and CIPH_INIT.
-/

namespace Sys2Proof.Machine

/-! ### The schedule constants (R120, R121) -/

theorem scheduleTm_toNat (n : Nat) : (scheduleTm n).toNat = (0x5A827999 + n * 0x6ED9EBA1) % 2 ^ 32 := BitVec.toNat_ofNat ..

theorem scheduleTm_succ (n : Nat) : scheduleTm (n + 1) = scheduleTm n + 0x6ED9EBA1#32 := by
  rw [scheduleTm, Nat.succ_mul, ← Nat.add_assoc, BitVec.ofNat_add, scheduleTm]

theorem scheduleTr_toNat (n : Nat) : (scheduleTr n).toNat = (19 + 17 * n) % 32 := BitVec.toNat_ofNat ..

/-- Reducing at every step gives what reducing once at the end gives (R121). -/
theorem scheduleTr_succ_toNat (n : Nat) : (scheduleTr (n + 1)).toNat = ((scheduleTr n).toNat + 17) % 32 := by
  rw [scheduleTr_toNat, scheduleTr_toNat]
  omega

theorem scheduleTr_add_period (n : Nat) : scheduleTr (n + 32) = scheduleTr n := by
  apply BitVec.eq_of_toNat_eq
  rw [scheduleTr_toNat, scheduleTr_toNat]
  omega

/-- Settles O4: the laws for every `n`; the listed values by evaluation. -/
theorem scheduleConstantsAreLinearRecurrences : Obligations.ScheduleConstantsAreLinearRecurrences :=
  ⟨scheduleTm_toNat, rfl, scheduleTm_succ, by decide, by decide, by decide, by decide, by decide,
    scheduleTr_toNat, rfl, scheduleTr_succ_toNat, scheduleTr_add_period, by decide, by decide⟩

/-! ### DODECAD (R123) -/

/-- A block is its twelve words. -/
theorem exists_words (w : KeyBlock) : ∃ a0 a1 a2 a3 a4 a5 a6 a7 a8 a9 a10 a11 : Word,
    w = #v[a0, a1, a2, a3, a4, a5, a6, a7, a8, a9, a10, a11] := by
  refine ⟨w[0], w[1], w[2], w[3], w[4], w[5], w[6], w[7], w[8], w[9], w[10], w[11], ?_⟩
  ext i hi
  interval_cases i <;> rfl

section ZeroTables

variable {cfg : Config} (hzero : ∀ t x, cfg.sbox t x = 0#32)
include hzero

/-- Each of the four looked-up Words is 0, and so is every combination of zeros (R133 (a)). -/
theorem roundF_of_zeroTables (f : RoundFn) (d km : Word) (kr : Rot) : roundF cfg f d km kr = 0#32 := by
  have hcombine : combineLookups cfg f 0#32 0#32 0#32 0#32 = 0#32 := by
    cases f <;> cases hg : cfg.fGrouping <;> simp [combineLookups, hg]
  rw [roundF_eq]
  simpa only [hzero] using hcombine

theorem dodecadStep_of_zeroTables (M : Nat → Word) (R : Nat → Rot) (off : Nat) (w : KeyBlock) (row : DodecadRow) :
    dodecadStep cfg M R off w row = w := by
  rw [dodecadStep, roundF_of_zeroTables hzero, BitVec.xor_zero]
  exact Vector.set_getElem_self ..

theorem dodecad_of_zeroTables (M : Nat → Word) (R : Nat → Rot) (off : Nat) (w : KeyBlock) :
    dodecad cfg M R off w = w :=
  List.foldl_fixed' (dodecadStep_of_zeroTables hzero M R off w) dodecadRows

theorem dodecads_of_zeroTables (m count : Nat) (w : KeyBlock) : dodecads cfg m count w = w := by
  induction count generalizing m with
  | zero => rfl
  | succ count ih => rw [dodecads, dodecad_of_zeroTables hzero, ih]

end ZeroTables

/-- Settles O5: on a block written out as its twelve words, each statement sets one of them. -/
theorem dodecadRunsTwelveStatementsInOrder : Obligations.DodecadRunsTwelveStatementsInOrder := by
  refine ⟨fun cfg M R off w => ?_, fun _ M R off w hzero => dodecad_of_zeroTables hzero M R off w⟩
  obtain ⟨a0, a1, a2, a3, a4, a5, a6, a7, a8, a9, a10, a11, rfl⟩ := exists_words w
  simp [dodecad, dodecadRows, dodecadStep]

/-! ### One cumulative block (R125, R126) -/

/-- The rounds' dodecads run on: after round `r` they are the first `(r + 1) · DODECAD_COUNT`. -/
theorem scheduleBlock_eq_dodecads (cfg : Config) (w : KeyBlock) (r : Nat) :
    scheduleBlock cfg w r = dodecads cfg 0 ((r + 1) * cfg.dodecadCount) w := by
  induction r with
  | zero => rw [scheduleBlock, Nat.zero_add, Nat.one_mul]
  | succ r ih =>
    calc scheduleBlock cfg w (r + 1)
      _ = dodecads cfg (0 + (r + 1) * cfg.dodecadCount) cfg.dodecadCount
            (dodecads cfg 0 ((r + 1) * cfg.dodecadCount) w) := by rw [scheduleBlock, ih, Nat.zero_add]
      _ = dodecads cfg 0 ((r + 1 + 1) * cfg.dodecadCount) w := by rw [dodecads_append, Nat.succ_mul (r + 1)]

/-- Settles O6: the block of round `r` is `scheduleBlock_eq_dodecads`; 5 bits of a Word are its residue modulo 32. -/
theorem roundKeysComeFromOneCumulativeBlock : Obligations.RoundKeysComeFromOneCumulativeBlock := by
  intro cfg key r j w
  have hblock : scheduleBlock cfg (packKey key) r = w := scheduleBlock_eq_dodecads cfg (packKey key) r
  constructor
  · simp only [generateRoundKeys_km cfg key r j j.isLt (by omega), hblock]
  · simp only [generateRoundKeys_kr cfg key r j j.isLt (by omega), hblock, BitVec.extractLsb'_toNat, Nat.shiftRight_zero]

/-! ### What a packed word depends on (R124) -/

/-- What follows a whole word of the key does not enter that word. -/
theorem packKeyWord_append_of_inside {a : List Byte} {j : Nat} (b : List Byte) (h : 4 * j + 3 < a.length) :
    packKeyWord (a ++ b) j = packKeyWord a j := by
  rw [packKeyWord_inside h, packKeyWord_inside (by rw [List.length_append]; omega)]
  simp only [List.getElem_append_left, show 4 * j < a.length by omega, show 4 * j + 1 < a.length by omega,
    show 4 * j + 2 < a.length by omega, h]

/-- A word of which every byte the key still holds is zero is zero. -/
theorem packKeyWord_of_zero_bytes {key : List Byte} {j : Nat}
    (h : ∀ i (hi : i < key.length), 4 * j ≤ i → key[i] = 0#8) : packKeyWord key j = 0#32 := by
  by_cases hj : 4 * j + 3 < key.length
  · rw [packKeyWord_inside hj, h _ _ (by omega), h _ _ (by omega), h _ _ (by omega), h _ _ (by omega)]
    rfl
  · exact packKeyWord_outside (Nat.not_lt.1 hj)

/-- A key below 4 bytes holds no whole word (R133 (d)). -/
theorem packKey_of_length_lt {key : List Byte} (h : key.length < 4) : packKey key = packKey [] := by
  ext1 j hj
  rw [packKey_getElem, packKey_getElem, packKeyWord_outside (by omega), packKeyWord_outside (Nat.zero_le _)]

theorem packKey_replicate_zero (n : Nat) : packKey (List.replicate n 0#8) = packKey [] := by
  ext1 j hj
  rw [packKey_getElem, packKey_getElem, packKeyWord_of_zero_bytes fun _ _ _ => List.getElem_replicate ..,
    packKeyWord_outside (Nat.zero_le _)]

/-- Words 0 to 10 come from the first 44 bytes; word 11 is zero, on the left because the key does not reach its end, on
the right because its four bytes are zero (R131). -/
theorem packKey_take_44 {key : List Byte} (hlo : 44 ≤ key.length) (hhi : key.length ≤ 47) :
    packKey key = packKey (key.take 44 ++ [0#8, 0#8, 0#8, 0#8]) := by
  have hlen : (key.take 44).length = 44 := List.length_take_of_le hlo
  ext1 j hj
  rw [packKey_getElem, packKey_getElem]
  by_cases hlast : j = 11
  · have htail : ∀ i (hi : i < (key.take 44 ++ List.replicate 4 0#8).length), 4 * j ≤ i →
        (key.take 44 ++ List.replicate 4 0#8)[i] = 0#8 := fun i hi hle => by
      rw [List.getElem_append_right (by omega), List.getElem_replicate]
    rw [packKeyWord_outside (by omega)]
    exact (packKeyWord_of_zero_bytes htail).symm
  · have hinside : 4 * j + 3 < (key.take 44).length := by omega
    rw [packKeyWord_append_of_inside _ hinside]
    conv_lhs => rw [← List.take_append_drop 44 key, packKeyWord_append_of_inside _ hinside]

/-! ### Short keys and the consequences of R133 -/

/-- Where the dodecads do nothing, every round extracts the packed key (R133 (a), (b)). -/
theorem generateRoundKeys_of_dodecads_eq {cfg : Config} (h : ∀ n w, dodecads cfg 0 (n * cfg.dodecadCount) w = w)
    (key : List Byte) (r : Fin 12) (j : Fin 6) :
    (generateRoundKeys cfg key).km[6 * r.val + j.val] = (packKey key)[11 - 2 * j.val] ∧
      (generateRoundKeys cfg key).kr[6 * r.val + j.val] = (packKey key)[2 * j.val].extractLsb' 0 5 := by
  have hblock : scheduleBlock cfg (packKey key) r = packKey key := (scheduleBlock_eq_dodecads ..).trans (h ..)
  constructor
  · simp only [generateRoundKeys_km cfg key r j j.isLt (by omega), hblock]
  · simp only [generateRoundKeys_kr cfg key r j j.isLt (by omega), hblock]

theorem dodecads_of_count_zero {cfg : Config} (hcount : cfg.dodecadCount = 0) (n : Nat) (w : KeyBlock) :
    dodecads cfg 0 (n * cfg.dodecadCount) w = w := by
  rw [hcount, Nat.mul_zero, dodecads]

/-- Without dodecads masking key 0 is word 11 of the packed key. -/
theorem generateRoundKeys_ne_of_word_11_ne {cfg : Config} (hcount : cfg.dodecadCount = 0) {a b : List Byte}
    (hne : (packKey a)[11] ≠ (packKey b)[11]) : generateRoundKeys cfg a ≠ generateRoundKeys cfg b := by
  have hkm0 : ∀ key, (generateRoundKeys cfg key).km[0] = (packKey key)[11] := fun key =>
    (generateRoundKeys_of_dodecads_eq (dodecads_of_count_zero hcount) key 0 0).1
  intro heq
  exact hne (by rw [← hkm0, ← hkm0, heq])

/-- A dodecad reads the tables and the orders of the configuration, not `DODECAD_COUNT` (R133 (c)). -/
theorem dodecads_withCount (cfg : Config) (c m count : Nat) (w : KeyBlock) :
    dodecads { cfg with dodecadCount := c } m count w = dodecads cfg m count w := by
  induction count generalizing m w with
  | zero => rfl
  | succ count ih => exact ih (m + 1) (dodecad cfg scheduleTm scheduleTr (12 * m) w)

theorem scheduleBlock_withCount (cfg : Config) (c : Nat) (w : KeyBlock) (r : Nat) :
    scheduleBlock { cfg with dodecadCount := c } w r = dodecads cfg 0 ((r + 1) * c) w := by
  rw [scheduleBlock_eq_dodecads, dodecads_withCount]

/-- Round `r` at two dodecads a round ends where round `2r + 1` does at one, after `2r + 2` dodecads (R133 (c)). -/
theorem scheduleBlock_count_two (cfg : Config) (w : KeyBlock) (r : Nat) :
    scheduleBlock { cfg with dodecadCount := 2 } w r = scheduleBlock { cfg with dodecadCount := 1 } w (2 * r + 1) := by
  have hcount : (r + 1) * 2 = (2 * r + 1 + 1) * 1 := by omega
  rw [scheduleBlock_withCount, scheduleBlock_withCount, hcount]

/-- Settles O7. Against byte-wise padding: word 11 of 46 bytes is zero, and keeps bytes 44 and 45 once two are appended. -/
theorem shortKeyZeroFillsWholeWords : Obligations.ShortKeyZeroFillsWholeWords := by
  refine ⟨fun _ hlo hhi => packKey_take_44 hlo hhi,
    fun cfg _ hlo hhi => generateRoundKeys_congr cfg (packKey_take_44 hlo hhi),
    { (default : Config) with dodecadCount := 0 }, List.replicate 46 1#8, List.length_replicate, ?_⟩
  exact generateRoundKeys_ne_of_word_11_ne rfl (by decide)

/-- Settles O8: (a) and (b) are two reasons why the dodecads do nothing, (c) is the block after as many dodecads, (d) is
a packed key of twelve zero words. -/
theorem keyScheduleConsequences : Obligations.KeyScheduleConsequences := by
  refine ⟨fun _ f d km kr hzero => roundF_of_zeroTables hzero f d km kr,
    fun _ M R off w hzero => dodecad_of_zeroTables hzero M R off w, fun cfg key hidle r j => ?_, fun cfg key r j => ?_,
    fun cfg key hkey => generateRoundKeys_congr cfg ?_⟩
  · refine generateRoundKeys_of_dodecads_eq (fun n w => ?_) key r j
    rcases hidle with hzero | hcount
    · exact dodecads_of_zeroTables hzero 0 _ w
    · exact dodecads_of_count_zero hcount n w
  · constructor
    · rw [generateRoundKeys_km _ key r j j.isLt, generateRoundKeys_km _ key (2 * r + 1) j j.isLt]
      simp only [scheduleBlock_count_two]
    · rw [generateRoundKeys_kr _ key r j j.isLt, generateRoundKeys_kr _ key (2 * r + 1) j j.isLt]
      simp only [scheduleBlock_count_two]
  · rcases hkey with hshort | rfl
    · exact packKey_of_length_lt hshort
    · exact packKey_replicate_zero 48

/-! ### CIPH_INIT (R127, R128) -/

theorem keyOperand_length (cfg : Config) (klen : Nat) (s : State) : (keyOperand cfg klen s).length = min klen 48 := by
  rw [keyOperand, List.length_map, List.length_range]

theorem take_keyOperand (cfg : Config) (n klen : Nat) (s : State) :
    (keyOperand cfg klen s).take n = keyOperand cfg (min n klen) s := by
  rw [keyOperand, keyOperand, ← List.map_take, List.take_range, Nat.min_assoc]

/-- CIPH_INIT depends on its key length through the packed key only (R124, R128). -/
theorem ciphInit_congr {cfg : Config} {m n : Nat} {s : State}
    (h : packKey (keyOperand cfg m s) = packKey (keyOperand cfg n s)) : ciphInit cfg m s = ciphInit cfg n s := by
  rw [ciphInit, ciphInit, keySetup, keySetup, generateRoundKeys_congr cfg h]

/-- Settles O15: the buffer holds 48 bytes; a length below 4 packs no whole word; 44 to 47 is R131. -/
theorem keyLengthCornerCases : Obligations.KeyLengthCornerCases := by
  refine ⟨fun klen s hlong => ?_, fun klen s hshort => ?_, fun klen s hlo hhi => ⟨_, exec_ciphInit klen s, ?_⟩⟩
  · rw [exec_ciphInit, exec_ciphInit, ciphInit_congr]
    rw [keyOperand, keyOperand, Nat.min_eq_right hlong, Nat.min_self]
  · rw [exec_ciphInit, exec_ciphInit, ciphInit_congr]
    exact packKey_of_length_lt (by rw [keyOperand_length]; omega)
  · have hlen := keyOperand_length Config.built klen s
    have htake : (keyOperand Config.built klen s).take 44 = keyOperand Config.built 44 s := by
      rw [take_keyOperand, Nat.min_eq_left hlo]
    rw [ciphInit_keys, generateRoundKeys_congr _ (packKey_take_44 (by omega) (by omega)), htake]
    rfl

/-- Settles O14. -/
theorem ciphInitLoadsTheKeySet : Obligations.CiphInitLoadsTheKeySet := by
  intro klen s
  refine ⟨_, exec_ciphInit klen s, ciphInit_keys Config.built klen s, ?keyed, ?lastErr, ?errSeen,
    ciphInit_sameMode Config.built klen s, readByte_ciphInit Config.built klen s, ?host⟩
  case keyed => simp [ciphInit]
  case lastErr => simp [ciphInit]
  case errSeen => simp [ciphInit]
  case host => simp [SameHostSide, ciphInit]

end Sys2Proof.Machine
end

