-- ==== Sys2Proof/Proofs/BlockCipher.lean ====
section
/-!
PROOF. The block cipher (spec 42_block_cipher.md): HEXAD and HEXADINV undo each other (R140 to R142), packing (R143,
R144), the two twelve-round sequences undo each other (R145 to R147), and the block commands (R148, R149).
-/

namespace Sys2Proof.Machine

/-! ### HEXAD and HEXADINV (R140 to R142) -/

/-- Settles O9: both are the definitions' own statements, the key pairs looked up by `keyedF`. -/
theorem hexadStatementsInOrder : Obligations.HexadStatementsInOrder :=
  fun _ _ _ _ _ => ⟨rfl, rfl⟩

/-- HEXADINV undoes the statements last first, so each finds its input word as HEXAD read it, and XORing the same
Word in twice is no change (R142). -/
@[simp] theorem hexadInv_hexad (cfg : Config) (keys : KeySet) (idx : Fin 67) (x : DataBlock) :
    hexadInv cfg keys idx (hexad cfg keys idx x) = x := by
  simp only [hexad, hexadInv, xor_cancel_right]

@[simp] theorem hexad_hexadInv (cfg : Config) (keys : KeySet) (idx : Fin 67) (x : DataBlock) :
    hexad cfg keys idx (hexadInv cfg keys idx x) = x := by
  simp only [hexad, hexadInv, xor_cancel_right]

theorem hexad_bijective (cfg : Config) (keys : KeySet) (idx : Fin 67) : Function.Bijective (hexad cfg keys idx) :=
  Function.bijective_iff_has_inverse.2 ⟨_, hexadInv_hexad cfg keys idx, hexad_hexadInv cfg keys idx⟩

theorem hexadInv_bijective (cfg : Config) (keys : KeySet) (idx : Fin 67) : Function.Bijective (hexadInv cfg keys idx) :=
  Function.bijective_iff_has_inverse.2 ⟨_, hexad_hexadInv cfg keys idx, hexadInv_hexad cfg keys idx⟩

/-- Where HEXADINV applied twice gives a block back, HEXAD applied twice does. -/
theorem hexadInv_twice_ne {cfg : Config} {keys : KeySet} {idx : Fin 67} {x : DataBlock}
    (h : hexad cfg keys idx (hexad cfg keys idx x) ≠ x) : hexadInv cfg keys idx (hexadInv cfg keys idx x) ≠ x :=
  fun hinv => h <|
    calc hexad cfg keys idx (hexad cfg keys idx x)
      _ = hexad cfg keys idx (hexad cfg keys idx (hexadInv cfg keys idx (hexadInv cfg keys idx x))) := by rw [hinv]
      _ = x := by rw [hexad_hexadInv, hexad_hexadInv]

/-- Tables that keep the top byte of a Word and clear the rest: the simplest under which a round function is neither
constant nor a mixture. -/
def topByteConfig : Config :=
  { (default : Config) with
    sbox := fun t b =>
      match t with
      | .s1 => b ++ 0#24
      | .s2 | .s3 | .s4 => 0#32 }

/-- Masking keys `low` in the first half of the KeySet and `high` in the second, no rotation. -/
def halvesKeys (low high : Word) : KeySet where
  km := Vector.ofFn fun i => if i.val < 36 then low else high
  kr := Vector.replicate 72 0#5

/-- The block whose one set bit is in the top byte of its last word. -/
def lastWordBlock : DataBlock := ⟨0#32, 0#32, 0#32, 0#32, 0#32, 0x01000000#32⟩

/-- HEXAD carries the set bit into the five words before it; the second time it meets them changed. -/
theorem hexad_twice_ne :
    hexad topByteConfig (halvesKeys 0#32 0#32) 0 (hexad topByteConfig (halvesKeys 0#32 0#32) 0 lastWordBlock) ≠
      lastWordBlock := by
  decide +kernel

/-- Settles O11: each is the other's two-sided inverse, and one block that HEXAD applied twice does not give back is
one that HEXADINV applied twice does not give back either. -/
theorem hexadAndHexadInvAreMutualInverses : Obligations.HexadAndHexadInvAreMutualInverses :=
  ⟨fun cfg keys idx x => ⟨hexadInv_hexad cfg keys idx x, hexad_hexadInv cfg keys idx x⟩,
    fun cfg keys idx => ⟨hexad_bijective cfg keys idx, hexadInv_bijective cfg keys idx⟩,
    ⟨_, _, _, _, hexad_twice_ne⟩, ⟨_, _, _, _, hexadInv_twice_ne hexad_twice_ne⟩⟩

/-! ### Packing (R143, R144) -/

/-- `Bytes32` takes the bytes of a Word apart again (R56). -/
theorem byte32_be32 (b0 b1 b2 b3 : Byte) (k : Fin 4) : byte32 (be32 b0 b1 b2 b3) k = #v[b0, b1, b2, b3][k] := by
  apply BitVec.eq_of_toNat_eq
  have h0 := b0.isLt
  have h1 := b1.isLt
  have h2 := b2.isLt
  have h3 := b3.isLt
  rw [byte32_toNat, be32_toNat]
  match k with
  | 0 | 1 | 2 | 3 =>
    simp only [Fin.getElem_fin, Fin.coe_ofNat_eq_mod, Nat.reduceMod, Nat.reduceSub, Nat.reduceMul, Nat.reducePow,
      Vector.getElem_mk, List.getElem_toArray, List.getElem_cons_zero, List.getElem_cons_succ]
    omega

theorem packBlock_word (b : Vector Byte 24) (j : Fin 6) :
    (packBlock b).word j = be32 b[4 * j.val] b[4 * j.val + 1] b[4 * j.val + 2] b[4 * j.val + 3] := by
  match j with
  | 0 | 1 | 2 | 3 | 4 | 5 => rfl

theorem unpackBlock_getElem (x : DataBlock) (j : Fin 6) (k : Fin 4) :
    (unpackBlock x)[4 * j.val + k.val] = byte32 (x.word j) k := by
  have hj : (4 * j.val + k.val) / 4 = j.val := by omega
  have hk : (4 * j.val + k.val) % 4 = k.val := by omega
  simp only [unpackBlock, Vector.getElem_ofFn, hj, hk]

/-- A block is its six words. -/
theorem DataBlock.ext_word {x y : DataBlock} (h : ∀ j, x.word j = y.word j) : x = y := by
  cases x
  cases y
  exact (DataBlock.mk.injEq ..).mpr ⟨h 0, h 1, h 2, h 3, h 4, h 5⟩

@[simp] theorem packBlock_unpackBlock (x : DataBlock) : packBlock (unpackBlock x) = x := by
  apply DataBlock.ext_word
  intro j
  rw [packBlock_word]
  calc be32 (unpackBlock x)[4 * j.val] (unpackBlock x)[4 * j.val + 1] (unpackBlock x)[4 * j.val + 2]
          (unpackBlock x)[4 * j.val + 3]
    _ = be32 (byte32 (x.word j) 0) (byte32 (x.word j) 1) (byte32 (x.word j) 2) (byte32 (x.word j) 3) := by
      rw [← unpackBlock_getElem, ← unpackBlock_getElem, ← unpackBlock_getElem, ← unpackBlock_getElem]; rfl
    _ = x.word j := be32_byte32 _

@[simp] theorem unpackBlock_packBlock (b : Vector Byte 24) : unpackBlock (packBlock b) = b := by
  have hbyte (j : Fin 6) (k : Fin 4) : (unpackBlock (packBlock b))[4 * j.val + k.val] = b[4 * j.val + k.val] := by
    rw [unpackBlock_getElem, packBlock_word, byte32_be32]
    match k with
    | 0 | 1 | 2 | 3 => rfl
  ext1 i hi
  simpa only [Nat.div_add_mod] using hbyte ⟨i / 4, by omega⟩ ⟨i % 4, Nat.mod_lt i (by decide)⟩

/-- Settles O12; the rule's example by evaluation. -/
theorem blockPackingRoundTrips : Obligations.BlockPackingRoundTrips :=
  ⟨packBlock_word, unpackBlock_getElem, by decide, unpackBlock_packBlock, packBlock_unpackBlock⟩

/-! ### The two sequences of rounds (R145 to R147) -/

theorem encryptBlock_eq (cfg : Config) (keys : KeySet) (b : Vector Byte 24) :
    encryptBlock cfg keys b =
      unpackBlock (hexadInvs cfg keys secondHalf (hexads cfg keys firstHalf (packBlock b))) := by
  rw [encryptBlock]

theorem decryptBlock_eq (cfg : Config) (keys : KeySet) (b : Vector Byte 24) :
    decryptBlock cfg keys b =
      unpackBlock (hexadInvs cfg keys firstHalf.reverse (hexads cfg keys secondHalf.reverse (packBlock b))) := by
  rw [decryptBlock]

/-- Settles O10: the folds over the listed offsets, written out. -/
theorem blockCipherSequences : Obligations.BlockCipherSequences := by
  intro cfg keys b H I
  exact ⟨encryptBlock_eq cfg keys b, decryptBlock_eq cfg keys b⟩

/-- The rounds of a list of offsets are undone by the opposite rounds, last offset first. -/
@[simp] theorem hexadInvs_reverse_hexads (cfg : Config) (keys : KeySet) (offsets : List (Fin 67)) (x : DataBlock) :
    hexadInvs cfg keys offsets.reverse (hexads cfg keys offsets x) = x := by
  induction offsets generalizing x with
  | nil => rfl
  | cons idx offsets ih =>
    simp only [hexads, hexadInvs, List.foldl_cons, List.reverse_cons, List.foldl_append, List.foldl_nil] at ih ⊢
    rw [ih, hexadInv_hexad]

@[simp] theorem hexads_hexadInvs_reverse (cfg : Config) (keys : KeySet) (offsets : List (Fin 67)) (x : DataBlock) :
    hexads cfg keys offsets (hexadInvs cfg keys offsets.reverse x) = x := by
  induction offsets with
  | nil => rfl
  | cons idx offsets ih =>
    simp only [hexads, hexadInvs, List.foldl_cons, List.reverse_cons, List.foldl_append, List.foldl_nil] at ih ⊢
    rw [hexad_hexadInv, ih]

/-- The same with the reversed list on the other side. -/
@[simp] theorem hexadInvs_hexads_reverse (cfg : Config) (keys : KeySet) (offsets : List (Fin 67)) (x : DataBlock) :
    hexadInvs cfg keys offsets (hexads cfg keys offsets.reverse x) = x := by
  simpa only [List.reverse_reverse] using hexadInvs_reverse_hexads cfg keys offsets.reverse x

@[simp] theorem hexads_reverse_hexadInvs (cfg : Config) (keys : KeySet) (offsets : List (Fin 67)) (x : DataBlock) :
    hexads cfg keys offsets.reverse (hexadInvs cfg keys offsets x) = x := by
  simpa only [List.reverse_reverse] using hexads_hexadInvs_reverse cfg keys offsets.reverse x

/-- "for all 192-bit blocks `b` and all keys `k`, `decrypt(encrypt(b), k) == b`" (R147): between the two sequences the
block is unpacked and packed again, then the second halves cancel, then the first. -/
theorem decryptBlock_encryptBlock (cfg : Config) (keys : KeySet) (b : Vector Byte 24) :
    decryptBlock cfg keys (encryptBlock cfg keys b) = b := by
  rw [decryptBlock_eq, encryptBlock_eq, packBlock_unpackBlock, hexads_reverse_hexadInvs, hexadInvs_reverse_hexads,
    unpackBlock_packBlock]

/-- The other order: the first halves cancel, then the second. -/
theorem encryptBlock_decryptBlock (cfg : Config) (keys : KeySet) (b : Vector Byte 24) :
    encryptBlock cfg keys (decryptBlock cfg keys b) = b := by
  rw [encryptBlock_eq, decryptBlock_eq, packBlock_unpackBlock, hexads_hexadInvs_reverse, hexadInvs_hexads_reverse,
    unpackBlock_packBlock]

/-- The sequences differ when the two halves of the KeySet do: here on the zero block. -/
theorem encryptBlock_ne_decryptBlock :
    encryptBlock topByteConfig (halvesKeys 0#32 0x01000000#32) (Vector.replicate 24 0#8) ≠
      decryptBlock topByteConfig (halvesKeys 0#32 0x01000000#32) (Vector.replicate 24 0#8) := by
  rw [encryptBlock_eq, decryptBlock_eq]
  decide +kernel

section ZeroTables

variable {cfg : Config} (hzero : ∀ t x, cfg.sbox t x = 0#32) (keys : KeySet)
include hzero

theorem keyedF_of_zeroTables (idx : Fin 67) (f : RoundFn) (j : Fin 6) (d : Word) : keyedF cfg keys idx f j d = 0#32 :=
  roundF_of_zeroTables hzero ..

theorem hexads_of_zeroTables (offsets : List (Fin 67)) (x : DataBlock) : hexads cfg keys offsets x = x :=
  List.foldl_fixed' (fun idx => by simp only [hexad, keyedF_of_zeroTables hzero, BitVec.xor_zero]) offsets

theorem hexadInvs_of_zeroTables (offsets : List (Fin 67)) (x : DataBlock) : hexadInvs cfg keys offsets x = x :=
  List.foldl_fixed' (fun idx => by simp only [hexadInv, keyedF_of_zeroTables hzero, BitVec.xor_zero]) offsets

/-- With zero tables every round leaves the block, and only the packing round trip remains (R147). -/
theorem encryptBlock_of_zeroTables (b : Vector Byte 24) : encryptBlock cfg keys b = b := by
  rw [encryptBlock_eq, hexads_of_zeroTables hzero, hexadInvs_of_zeroTables hzero, unpackBlock_packBlock]

theorem decryptBlock_of_zeroTables (b : Vector Byte 24) : decryptBlock cfg keys b = b := by
  rw [decryptBlock_eq, hexads_of_zeroTables hzero, hexadInvs_of_zeroTables hzero, unpackBlock_packBlock]

end ZeroTables

/-- Settles O13: the two round trips, the zero block under a KeySet of two halves, and rounds that change nothing. -/
theorem blockCipherRoundTrips : Obligations.BlockCipherRoundTrips :=
  ⟨fun cfg keys b => ⟨decryptBlock_encryptBlock cfg keys b, encryptBlock_decryptBlock cfg keys b⟩,
    ⟨_, _, _, encryptBlock_ne_decryptBlock⟩,
    fun _ keys b hzero => ⟨encryptBlock_of_zeroTables hzero keys b, decryptBlock_of_zeroTables hzero keys b⟩⟩

/-! ### The block commands (R148, R149) -/

section BlockCommand

variable {cfg : Config} {f g : Config → KeySet → Vector Byte 24 → Vector Byte 24} {s : State}

theorem blockCommand_of_not_keyed (hkeyed : s.keyed = false) (dlen : Nat) :
    blockCommand cfg f dlen s = raise .notInitialised s := by
  simp only [blockCommand, hkeyed, if_true]

theorem blockCommand_of_bad_length (hkeyed : s.keyed = true) {dlen : Nat} (hlen : dlen ≠ 24) :
    blockCommand cfg f dlen s = raise .invalidLength s := by
  simp [blockCommand, hkeyed, hlen]

theorem blockCommand_of_keyed (hkeyed : s.keyed = true) :
    blockCommand cfg f 24 s = succeed (storeBlock (f cfg s.keys (blockOperand cfg s)) s) := by
  simp [blockCommand, hkeyed]

/-- `t` is `s` after a command that succeeded and left the block `b` in `DBUF[0..23]`: what a block command may change
(R37, R42, R148). -/
structure HoldsBlock (cfg : Config) (b : Vector Byte 24) (s t : State) : Prop where
  inside : ∀ k : Fin 24, readByte cfg t (0x100 + k.val) = b[k]
  outside : SameBytesOutside cfg 0x100 24 s t
  lastErr : t.lastErr = .ok
  errSeen : t.errSeen = s.errSeen
  cipher : SameCipher s t
  mode : SameMode s t
  host : SameHostSide s t

theorem holdsBlock_storeBlock (cfg : Config) (b : Vector Byte 24) (s : State) :
    HoldsBlock cfg b s (succeed (storeBlock b s)) := by
  obtain ⟨hstate, houtside⟩ := storeBlock_writes cfg b s
  have hinside : ∀ k : Fin 24, readByte cfg (succeed (storeBlock b s)) (0x100 + k.val) = b[k] := fun k =>
    readByte_storeBlock_inside cfg b s k.isLt
  rw [hstate] at hinside houtside ⊢
  exact ⟨hinside, houtside, rfl, rfl, ⟨rfl, rfl⟩, ⟨rfl, rfl, rfl, rfl, rfl⟩, ⟨rfl, rfl, rfl⟩⟩

/-- On a keyed CORE a block command of 24 bytes leaves its transform of the block in its place (R148, R149). -/
theorem blockCommand_holdsBlock (cfg : Config) (f : Config → KeySet → Vector Byte 24 → Vector Byte 24)
    (hkeyed : s.keyed = true) : HoldsBlock cfg (f cfg s.keys (blockOperand cfg s)) s (blockCommand cfg f 24 s) := by
  rw [blockCommand_of_keyed hkeyed]
  exact holdsBlock_storeBlock ..

/-- The block a later block command reads is the one that was left there (R83). -/
theorem HoldsBlock.blockOperand_eq {b : Vector Byte 24} {t : State} (h : HoldsBlock cfg b s t) :
    blockOperand cfg t = b := by
  ext1 i hi
  rw [blockOperand, Vector.getElem_ofFn]
  exact h.inside ⟨i, hi⟩

/-- Of two blocks left in turn the second stands. -/
theorem HoldsBlock.trans {b c : Vector Byte 24} {t u : State} (h : HoldsBlock cfg b s t) (h' : HoldsBlock cfg c t u) :
    HoldsBlock cfg c s u := by
  obtain ⟨_, houtside, _, hseen, ⟨hkeys, hkeyed⟩, ⟨hnonce, hctr, hks, hcur, hready⟩,
    ⟨hport, hanswers, hdraw⟩⟩ := h
  obtain ⟨hinside', houtside', hok', hseen', ⟨hkeys', hkeyed'⟩, ⟨hnonce', hctr', hks', hcur', hready'⟩,
    ⟨hport', hanswers', hdraw'⟩⟩ := h'
  exact ⟨hinside', fun x hx => (houtside' x hx).trans (houtside x hx), hok', hseen'.trans hseen,
    ⟨hkeys'.trans hkeys, hkeyed'.trans hkeyed⟩,
    ⟨hnonce'.trans hnonce, hctr'.trans hctr, hks'.trans hks, hcur'.trans hcur, hready'.trans hready⟩,
    ⟨hport'.trans hport, hanswers'.trans hanswers, hdraw'.trans hdraw⟩⟩

/-- Leaving the block that stood there changes no byte. -/
theorem HoldsBlock.sameBytes {t : State} (h : HoldsBlock cfg (blockOperand cfg s) s t) : SameBytes cfg s t := by
  intro x
  by_cases hx : 0x100 ≤ x ∧ x < 0x100 + 24
  · obtain ⟨k, hk, rfl⟩ := (exists_offset_lt_iff 0x100 24 x).2 hx
    refine (h.inside ⟨k, hk⟩).trans ?_
    exact Vector.getElem_ofFn ..
  · exact h.outside x (by omega)

/-- Of two block commands in turn, the second inverse to the first, the block that stood there is left (R147). -/
theorem blockCommand_blockCommand (hinverse : ∀ keys b, g cfg keys (f cfg keys b) = b) (hkeyed : s.keyed = true) :
    HoldsBlock cfg (blockOperand cfg s) s (blockCommand cfg g 24 (blockCommand cfg f 24 s)) := by
  have hfirst := blockCommand_holdsBlock cfg f hkeyed
  obtain ⟨hkeys, hstill⟩ := hfirst.cipher
  have hsecond := blockCommand_holdsBlock cfg g (hstill.trans hkeyed)
  rw [hkeys, hfirst.blockOperand_eq, hinverse] at hsecond
  exact hfirst.trans hsecond

end BlockCommand

/-- Settles O18: the two checks in their order, each ending in `raise` (R195, R196). -/
theorem blockCommandErrors : Obligations.BlockCommandErrors := by
  intro dlen s i hi
  have herrors (f : Config → KeySet → Vector Byte 24 → Vector Byte 24) :
      (s.keyed = false → blockCommand Config.built f dlen s = raise .notInitialised s) ∧
        (s.keyed = true → dlen ≠ 24 → blockCommand Config.built f dlen s = raise .invalidLength s) :=
    ⟨fun hkeyed => blockCommand_of_not_keyed hkeyed dlen, fun hkeyed => blockCommand_of_bad_length hkeyed⟩
  rcases hi with rfl | rfl
  · obtain ⟨hunkeyed, hlength⟩ := herrors encryptBlock
    exact ⟨fun hkeyed => congrArg _ (hunkeyed hkeyed), fun hkeyed hlen => congrArg _ (hlength hkeyed hlen)⟩
  · obtain ⟨hunkeyed, hlength⟩ := herrors decryptBlock
    exact ⟨fun hkeyed => congrArg _ (hunkeyed hkeyed), fun hkeyed hlen => congrArg _ (hlength hkeyed hlen)⟩

/-- Settles O16: the block left is the encryption of the one that stood there. -/
theorem ciphEncTransformsTheBlock : Obligations.CiphEncTransformsTheBlock := by
  intro s hkeyed
  obtain ⟨hinside, houtside, hok, hseen, hcipher, hmode, hhost⟩ :=
    blockCommand_holdsBlock Config.built encryptBlock hkeyed
  exact ⟨_, exec_ciphEnc 24 s, hinside, houtside, hok, hseen, hcipher, hmode, hhost⟩

/-- Settles O17: as O16 with `decryptBlock`. -/
theorem ciphDecTransformsTheBlock : Obligations.CiphDecTransformsTheBlock := by
  intro s hkeyed
  obtain ⟨hinside, houtside, hok, hseen, hcipher, hmode, hhost⟩ :=
    blockCommand_holdsBlock Config.built decryptBlock hkeyed
  exact ⟨_, exec_ciphDec 24 s, hinside, houtside, hok, hseen, hcipher, hmode, hhost⟩

/-- Settles O19: the second command reads the block the first one left and undoes it. -/
theorem blockCommandsUndoEachOther : Obligations.BlockCommandsUndoEachOther := by
  rintro s hkeyed i j (⟨rfl, rfl⟩ | ⟨rfl, rfl⟩)
  · have h := blockCommand_blockCommand (decryptBlock_encryptBlock Config.built) hkeyed
    exact ⟨_, _, exec_ciphEnc 24 s, exec_ciphDec 24 _, h.sameBytes, h.lastErr, h.errSeen, h.cipher, h.mode, h.host⟩
  · have h := blockCommand_blockCommand (encryptBlock_decryptBlock Config.built) hkeyed
    exact ⟨_, _, exec_ciphDec 24 s, exec_ciphEnc 24 _, h.sameBytes, h.lastErr, h.errSeen, h.cipher, h.mode, h.host⟩

end Sys2Proof.Machine
end

