-- ==== Sys2Proof/Proofs/CtrMode.lean ====
section
/-!
PROOF. The CTR mode (spec 43_ctr_mode.md): the keystream block (R161), the stream commands (R162 to R168), the seek (R169,
R170, R178), and the stream position (R171, R172, R176).
-/

namespace Sys2Proof.Machine

/-! ### The mode commands and their checks (R165 to R169, R195) -/

theorem exec_stream (decrypting : Bool) (n : Nat) (s : State) :
    exec (streamInstr decrypting n) s = .next (streamCommand Config.built n s) := by
  cases decrypting <;> rfl

/-- A stream command that passes its checks is the run of bytes, whatever its direction (R166, R167). -/
theorem exec_stream_of_ready (decrypting : Bool) {n : Nat} {s : State} (hready : s.ctrReady = true)
    (hlen : n ≤ Config.built.dbufBytes) :
    exec (streamInstr decrypting n) s = .next (succeed (ctrXor Config.built n s)) := by
  rw [exec_stream, streamCommand_of_ready _ hready hlen]

theorem eq_of_exec_stream {decrypting : Bool} {n : Nat} {s t : State} (hready : s.ctrReady = true)
    (hlen : n ≤ Config.built.dbufBytes) (h : exec (streamInstr decrypting n) s = .next t) :
    t = succeed (ctrXor Config.built n s) := by
  injection h.symm.trans (exec_stream_of_ready decrypting hready hlen)

theorem streamCommand_of_not_ready (cfg : Config) {s : State} (hready : s.ctrReady = false) (dlen : Nat) :
    streamCommand cfg dlen s = raise .notInitialised s := by
  simp only [streamCommand, hready, if_true]

theorem streamCommand_of_long {cfg : Config} {dlen : Nat} {s : State} (hready : s.ctrReady = true)
    (hlen : cfg.dbufBytes < dlen) : streamCommand cfg dlen s = raise .invalidLength s := by
  simp [streamCommand, hready, hlen]

theorem ctrSeek_of_not_ready (cfg : Config) {s : State} (hready : s.ctrReady = false) (clen : Nat) :
    ctrSeek cfg clen s = raise .notInitialised s := by
  simp only [ctrSeek, hready, if_true]

theorem ctrSeek_of_long (cfg : Config) {clen : Nat} {s : State} (hready : s.ctrReady = true) (hlen : 8 < clen) :
    ctrSeek cfg clen s = raise .invalidLength s := by
  simp [ctrSeek, hready, hlen]

theorem ctrSeek_of_ready (cfg : Config) {clen : Nat} {s : State} (hready : s.ctrReady = true) (hlen : clen ≤ 8) :
    ctrSeek cfg clen s = succeed { s with ctr := counterOfBytes (seekOperand cfg clen s), cur := 24#5 } := by
  simp [ctrSeek, hready, hlen]

theorem ctrInit_of_bad_length (cfg : Config) (klen : Nat) {nlen : Nat} (hlen : nlen ≠ 16) (s : State) :
    ctrInit cfg klen nlen s = raise .invalidLength s := by
  rw [ctrInit, if_pos hlen]

theorem ctrInit_of_nonce (cfg : Config) (klen : Nat) (s : State) :
    ctrInit cfg klen 16 s =
      { s with keys := generateRoundKeys cfg (keyOperand cfg klen s), keyed := true, nonce := nonceOperand cfg s,
               ctr := 0#64, cur := 24#5, ctrReady := true, lastErr := .ok } := by
  rcases ctrInit_cases cfg klen 16 s with ⟨hne, _⟩ | ⟨_, h⟩
  · exact absurd rfl hne
  · exact h

theorem exec_ctrInit_of_nonce (klen : Nat) (s : State) :
    exec (.ctrInit klen 16) s = .next
      { s with keys := generateRoundKeys Config.built (keyOperand Config.built klen s), keyed := true,
               nonce := nonceOperand Config.built s, ctr := 0#64, cur := 24#5, ctrReady := true, lastErr := .ok } := by
  rw [exec_ctrInit, ctrInit_of_nonce]

theorem exec_ctrSeek_of_ready {clen : Nat} {s : State} (hready : s.ctrReady = true) (hlen : clen ≤ 8) :
    exec (.ctrSeek clen) s =
      .next (succeed { s with ctr := counterOfBytes (seekOperand Config.built clen s), cur := 24#5 }) := by
  rw [exec_ctrSeek, ctrSeek_of_ready _ hready hlen]

/-- Settles O22: the length check comes before anything is written. -/
theorem ctrInitRejectsOtherNonceLengths : Obligations.CtrInitRejectsOtherNonceLengths :=
  fun klen _ s hlen => congrArg _ (ctrInit_of_bad_length Config.built klen hlen s)

/-- Settles O24: the two checks of each command in their order, each ending in `raise` (R195, R196). -/
theorem modeCommandErrors : Obligations.ModeCommandErrors := by
  intro n s
  refine ⟨fun decrypting => ?_, fun hready => congrArg _ (ctrSeek_of_not_ready _ hready n),
    fun hready hlen => congrArg _ (ctrSeek_of_long _ hready hlen)⟩
  rw [exec_stream]
  exact ⟨fun hready => congrArg _ (streamCommand_of_not_ready _ hready n),
    fun hready hlen => congrArg _ (streamCommand_of_long hready hlen)⟩

/-- Settles O25: both are the one stream command. -/
theorem ctrDecIsCtrEnc : Obligations.CtrDecIsCtrEnc :=
  fun n s => (exec_stream true n s).trans (exec_stream false n s).symm

/-- Settles O21: the fields of `ctrInit_of_nonce`. -/
theorem ctrInitBindsKeyAndNonce : Obligations.CtrInitBindsKeyAndNonce := by
  intro klen s
  exact ⟨_, exec_ctrInit_of_nonce klen s, fun k => Vector.getElem_ofFn .., rfl, rfl, rfl, rfl, rfl, rfl, rfl, rfl,
    fun _ => readByte_congr rfl rfl _, rfl, rfl, rfl⟩

/-! ### The keystream block (R161) -/

theorem keystreamInput_nonce (nonce : Vector Byte 16) (c : Count) {i : Nat} (hi : i < 16) :
    (keystreamInput nonce c)[i] = nonce[i] :=
  Vector.getElem_append_left hi

theorem keystreamInput_counter (nonce : Vector Byte 16) (c : Count) {i : Nat} (hle : 16 ≤ i) (hi : i < 24) :
    (keystreamInput nonce c)[i] = byte64 c ⟨i - 16, by omega⟩ := by
  rw [← bytes64_getElem]
  exact Vector.getElem_append_right hi hle

/-- The first four bytes of a counter are its high half (R56). -/
theorem be32_byte64_high (c : Count) :
    be32 (byte64 c 0) (byte64 c 1) (byte64 c 2) (byte64 c 3) = c.extractLsb' 32 32 := by
  apply BitVec.eq_of_toNat_eq
  rw [BitVec.extractLsb'_toNat, Nat.shiftRight_eq_div_pow]
  simp only [be32_toNat, byte64_toNat, Fin.coe_ofNat_eq_mod, Nat.reduceMod, Nat.reduceSub, Nat.reduceMul, Nat.reducePow]
  omega

/-- The last four bytes of a counter are its low half (R56). -/
theorem be32_byte64_low (c : Count) :
    be32 (byte64 c 4) (byte64 c 5) (byte64 c 6) (byte64 c 7) = c.extractLsb' 0 32 := by
  apply BitVec.eq_of_toNat_eq
  rw [BitVec.extractLsb'_toNat, Nat.shiftRight_zero]
  simp only [be32_toNat, byte64_toNat, Fin.coe_ofNat_eq_mod, Nat.reduceMod, Nat.reduceSub, Nat.reduceMul, Nat.reducePow]
  omega

/-- Settles O20: the input block byte by byte, then packed into words; with zero tables the encryption is no change. -/
theorem keystreamBlockEncryptsNonceAndCounter : Obligations.KeystreamBlockEncryptsNonceAndCounter := by
  intro cfg keys nonce c
  refine ⟨rfl, fun i => keystreamInput_nonce nonce c i.isLt, fun i => ?bytes, fun j => ?nonceWord, ?high, ?low,
    fun hzero => encryptBlock_of_zeroTables hzero keys _⟩
  case bytes =>
    have hoffset : 16 + i.val - 16 = i.val := Nat.add_sub_cancel_left ..
    simp only [keystreamInput_counter nonce c (Nat.le_add_right 16 i.val), byte64_toNat, hoffset]
  case nonceWord =>
    rw [packBlock_word]
    simp only [keystreamInput_nonce nonce c (i := 4 * j.val) (by omega),
      keystreamInput_nonce nonce c (i := 4 * j.val + 1) (by omega),
      keystreamInput_nonce nonce c (i := 4 * j.val + 2) (by omega),
      keystreamInput_nonce nonce c (i := 4 * j.val + 3) (by omega)]
  case high =>
    simp only [packBlock, keystreamInput_counter, Nat.reduceLeDiff]
    exact be32_byte64_high c
  case low =>
    simp only [packBlock, keystreamInput_counter, Nat.reduceLeDiff]
    exact be32_byte64_low c

/-! ### Runs of bytes in the logical keystream (R171) -/

/-- A run of `n` bytes moves the position by `n`. -/
theorem StreamAt.ctrXor {cfg : Config} {c0 : Count} {j : Nat} {s : State} (h : StreamAt cfg c0 j s) (n : Nat) :
    StreamAt cfg c0 (j + n) (Machine.ctrXor cfg n s) := by
  induction n with
  | zero => exact h
  | succ n ih => exact ih.xorByte n

/-- A run that starts at byte `j` XORs its byte `k` with byte `j + k` of the logical keystream. -/
theorem StreamAt.readByte_ctrXor {cfg : Config} {c0 : Count} {j n k : Nat} {s : State} (h : StreamAt cfg c0 j s)
    (hk : k < n) :
    readByte cfg (Machine.ctrXor cfg n s) (Buffer.dbuf.addr k) =
      readByte cfg s (Buffer.dbuf.addr k) ^^^ logicalByte cfg s.keys s.nonce c0 (j + k) := by
  rw [readByte_ctrXor_inside cfg n s hk, (h.ctrXor k).takeKeystream.1, ctrXor_keys, ctrXor_nonce]

theorem StreamAt.succeed {cfg : Config} {c0 : Count} {j : Nat} {s : State} (h : StreamAt cfg c0 j s) :
    StreamAt cfg c0 j (succeed s) :=
  h.congr rfl rfl rfl rfl rfl

/-- With the buffer empty the unit stands at byte 0 of the keystream that starts at `CTR` (R171). -/
theorem streamAt_zero_iff {cfg : Config} {c0 : Count} {s : State} :
    StreamAt cfg c0 0 s ↔ s.cur = 24#5 ∧ s.ctr = c0 := by
  simp [streamAt_between]

/-- Settles O26: a stream command is a run of bytes, and each byte of it moves the position by one. -/
theorem streamFollowsTheLogicalKeystream : Obligations.StreamFollowsTheLogicalKeystream := by
  intro decrypting c0 j n s hat hready hlen
  exact ⟨_, exec_stream_of_ready decrypting hready hlen, (hat.ctrXor n).succeed,
    fun _ hk => hat.readByte_ctrXor hk, by simp, by simp, by simpa using hready⟩

/-- Settles O27: both commands empty the buffer and set `CTR`. -/
theorem initAndSeekStartTheKeystream : Obligations.InitAndSeekStartTheKeystream :=
  ⟨fun klen s => ⟨_, exec_ctrInit_of_nonce klen s, streamAt_zero_iff.2 ⟨rfl, rfl⟩⟩,
    fun _ _ hready hlen => ⟨_, exec_ctrSeek_of_ready hready hlen, streamAt_zero_iff.2 ⟨rfl, rfl⟩⟩⟩

/-! ### Cursor and counter after a number of bytes (R172) -/

/-- `j` keystream bytes were taken since the position was set to `c0`: `CTR` counts the blocks made since, and their
bytes are those taken and the `24 - CUR` still buffered (R162 to R164). Of the KeySet and the nonce it says nothing, so a
re-key keeps it. -/
structure PositionAt (c0 : Count) (j : Nat) (s : State) : Prop where
  cur : s.cur.toNat + 24 * ((j + 23) / 24) = j + 24
  ctr : s.ctr = c0 + BitVec.ofNat 64 ((j + 23) / 24)

theorem PositionAt.congr {c0 : Count} {j : Nat} {s t : State} (h : PositionAt c0 j s) (hctr : t.ctr = s.ctr)
    (hcur : t.cur = s.cur) : PositionAt c0 j t :=
  ⟨hcur ▸ h.cur, hctr.trans h.ctr⟩

theorem positionAt_zero {c0 : Count} {s : State} (hcur : s.cur = 24#5) (hctr : s.ctr = c0) : PositionAt c0 0 s :=
  ⟨by rw [hcur]; rfl, by simp [hctr]⟩

theorem PositionAt.of_zero {c0 : Count} {s : State} (h : PositionAt c0 0 s) : s.cur = 24#5 ∧ s.ctr = c0 :=
  ⟨BitVec.eq_of_toNat_eq h.cur, by simpa using h.ctr⟩

/-- The cursor and the counter as R172 writes them. -/
theorem PositionAt.of_pos {c0 : Count} {j : Nat} {s : State} (h : PositionAt c0 j s) (hj : 0 < j) :
    s.cur.toNat = (j - 1) % 24 + 1 ∧ s.ctr.toNat = (c0.toNat + (j - 1) / 24 + 1) % 2 ^ 64 := by
  have hcur := h.cur
  have hblocks : (j + 23) / 24 = (j - 1) / 24 + 1 := by omega
  refine ⟨by omega, ?_⟩
  rw [h.ctr, hblocks, BitVec.toNat_add, BitVec.toNat_ofNat, Nat.add_mod_mod, Nat.add_assoc]

/-- Taking a byte makes a new block exactly when the blocks made so far are used up. -/
theorem PositionAt.takeKeystream {c0 : Count} {j : Nat} {s : State} (cfg : Config) (h : PositionAt c0 j s) :
    PositionAt c0 (j + 1) (Machine.takeKeystream cfg s).2 := by
  obtain ⟨hcur, hctr⟩ := h
  rcases takeKeystream_cases cfg s with ⟨hbuffered, e⟩ | ⟨hempty, e⟩ <;> rw [e]
  · have hblocks : (j + 1 + 23) / 24 = (j + 23) / 24 := by omega
    refine ⟨?_, by rw [hblocks]; exact hctr⟩
    rw [hblocks]
    simp only [BitVec.toNat_add, BitVec.toNat_ofNat]
    omega
  · have hblocks : (j + 1 + 23) / 24 = (j + 23) / 24 + 1 := by omega
    refine ⟨?_, ?_⟩
    · simp only [BitVec.toNat_ofNat]
      omega
    · simp only [refill_ctr, hctr, hblocks, BitVec.ofNat_add, BitVec.add_assoc]

theorem PositionAt.ctrXor {c0 : Count} {j : Nat} {s : State} (cfg : Config) (h : PositionAt c0 j s) (n : Nat) :
    PositionAt c0 (j + n) (Machine.ctrXor cfg n s) := by
  induction n with
  | zero => exact h
  | succ n ih => exact (ih.takeKeystream cfg).congr (xorByte_ctr ..) (xorByte_cur ..)

/-- The position in the logical keystream says what `CTR` and `CUR` hold. -/
theorem StreamAt.positionAt {cfg : Config} {c0 : Count} {j : Nat} {s : State} (h : StreamAt cfg c0 j s) :
    PositionAt c0 j s := by
  by_cases hj : j % 24 = 0
  · obtain ⟨hcur, hctr⟩ := (streamAt_between hj).1 h
    have hblocks : (j + 23) / 24 = j / 24 := by omega
    refine ⟨?_, by rw [hblocks, hctr]⟩
    rw [hcur, BitVec.toNat_ofNat]
    omega
  · obtain ⟨hcur, hctr, _⟩ := (streamAt_inside hj).1 h
    have hblocks : (j + 23) / 24 = j / 24 + 1 := by omega
    refine ⟨?_, by rw [hblocks, hctr, BitVec.ofNat_add, BitVec.add_assoc]⟩
    rw [hcur, toNat_blockOffset]
    omega

/-- After byte `j` is taken `KS` holds the block it is in (R162, R171). -/
theorem StreamAt.takeKeystream_ks {cfg : Config} {c0 : Count} {j : Nat} {s : State} (h : StreamAt cfg c0 j s) :
    (Machine.takeKeystream cfg s).2.ks =
      keystreamBlock cfg s.keys s.nonce (c0 + BitVec.ofNat 64 (j / 24)) := by
  by_cases hj : j % 24 = 0
  · obtain ⟨hcur, hctr⟩ := (streamAt_between hj).1 h
    rw [takeKeystream_of_empty cfg hcur, refill_ks, hctr]
  · obtain ⟨hcur, _, hks⟩ := (streamAt_inside hj).1 h
    rw [takeKeystream_of_buffered cfg (by rw [hcur, toNat_blockOffset]) (by omega), hks]

/-- A run that outlasts the buffered keystream by `m + 1` bytes refills once for each block it begins, and leaves the
last of them in `KS` (R162 to R164). -/
theorem ctrXor_refilled (cfg : Config) {s : State} (hcur : s.cur.toNat ≤ 24) {n m : Nat}
    (hn : n = 24 - s.cur.toNat + m + 1) :
    (ctrXor cfg n s).ctr = s.ctr + BitVec.ofNat 64 (m / 24 + 1) ∧
      (ctrXor cfg n s).ks = keystreamBlock cfg s.keys s.nonce (s.ctr + BitVec.ofNat 64 (m / 24)) ∧
      (ctrXor cfg n s).cur.toNat = m % 24 + 1 := by
  have hlast : StreamAt cfg s.ctr m (ctrXor cfg (24 - s.cur.toNat + m) s) := by
    have h := ctrXor_streamAt cfg hcur (k := 24 - s.cur.toNat + m) (by omega)
    rwa [show s.cur.toNat + (24 - s.cur.toNat + m) - 24 = m by omega] at h
  have hblocks : (m + 1 + 23) / 24 = m / 24 + 1 := by omega
  rw [hn, ctrXor]
  obtain ⟨hused, hctr⟩ := (hlast.xorByte (24 - s.cur.toNat + m)).positionAt
  exact ⟨hblocks ▸ hctr, by simpa using hlast.takeKeystream_ks, by omega⟩

/-- Settles O23: the bytes taken turn by turn, what lies outside the run, and the three fields with and without a
refill; all other state is `ctrXor`'s frame. -/
theorem streamCommandsXorTheKeystream : Obligations.StreamCommandsXorTheKeystream := by
  intro decrypting n s hready hcur hlen
  refine ⟨_, exec_stream_of_ready decrypting hready hlen, fun k hk => ?bytes,
    fun _ hx => readByte_ctrXor_outside Config.built n s hx, fun hn => ?buffered, fun hn => ?refilled, by simp,
    by simpa using hready, by simp, by simp, by simp [SameCipher], by simp [SameHostSide]⟩
  case bytes =>
    rw [← takeKeystream_ctrXor Config.built hcur]
    exact readByte_ctrXor_inside Config.built n s hk
  case buffered =>
    obtain ⟨hks, hctr, hused⟩ := ctrXor_buffered Config.built s hn
    exact ⟨hctr, hks, hused⟩
  case refilled =>
    obtain ⟨m, hm⟩ := Nat.exists_eq_add_of_lt hn
    obtain ⟨hctr, hks, hused⟩ := ctrXor_refilled Config.built hcur (m := m) (by omega)
    have hblocks : (n - (24 - s.cur.toNat) + 23) / 24 = m / 24 + 1 := by omega
    have hbytes : n - (24 - s.cur.toNat) - 1 = m := by omega
    rw [succeed_ctr, succeed_ks, succeed_cur, hblocks, hbytes]
    refine ⟨hctr, ?_, hused⟩
    rw [hks, hctr, BitVec.ofNat_add, ← BitVec.add_assoc, BitVec.add_sub_cancel]

/-! ### Splitting and repeating a run (R168, R176) -/

/-- The two states take the same keystream: they agree in the KeySet, the nonce, `CTR`, `CUR` and `KS` (R163, R168). -/
structure SameKeystream (s t : State) : Prop where
  keys : t.keys = s.keys
  nonce : t.nonce = s.nonce
  ctr : t.ctr = s.ctr
  cur : t.cur = s.cur
  ks : t.ks = s.ks

theorem SameKeystream.takeKeystream {s t : State} (h : SameKeystream s t) (cfg : Config) :
    (Machine.takeKeystream cfg t).1 = (Machine.takeKeystream cfg s).1 :=
  (takeKeystream_congr h.keys h.nonce h.ctr h.ks h.cur).1

/-- It does not matter which byte of `DBUF` the keystream byte went into. -/
theorem SameKeystream.xorByte {s t : State} (h : SameKeystream s t) (cfg : Config) (i j : Nat) :
    SameKeystream (Machine.xorByte cfg i s) (Machine.xorByte cfg j t) := by
  obtain ⟨_, hks, hctr, hcur⟩ := takeKeystream_congr (cfg := cfg) h.keys h.nonce h.ctr h.ks h.cur
  exact ⟨by simp [h.keys], by simp [h.nonce], hctr, hcur, hks⟩

/-- A run goes on after `a` bytes as a run that starts from the same keystream (R176). -/
theorem SameKeystream.ctrXor_add {cfg : Config} {a : Nat} {s u : State} (h : SameKeystream (ctrXor cfg a s) u)
    (b : Nat) : SameKeystream (ctrXor cfg (a + b) s) (ctrXor cfg b u) := by
  induction b with
  | zero => exact h
  | succ b ih => exact ih.xorByte cfg (a + b) b

/-- Two runs from the same keystream stay there. -/
theorem SameKeystream.ctrXor {s u : State} (h : SameKeystream s u) (cfg : Config) (n : Nat) :
    SameKeystream (ctrXor cfg n s) (ctrXor cfg n u) := by
  simpa only [Nat.zero_add] using SameKeystream.ctrXor_add (cfg := cfg) (a := 0) h n

/-- Settles O29: the second chunk takes the keystream the one run takes from byte `a` on. -/
theorem splitInvariance : Obligations.SplitInvariance := by
  intro d1 d2 d3 a b s t u hready hlen hfirst hkeys hnonce hctr hcur hks hreadyEq hreload
  obtain rfl := eq_of_exec_stream hready (by omega) hfirst
  have hsplit : SameKeystream (ctrXor Config.built a s) u := ⟨hkeys, hnonce, hctr, hcur, hks⟩
  have hureadyEq : u.ctrReady = true := by simpa [hready] using hreadyEq
  have hend := hsplit.ctrXor_add b
  refine ⟨_, _, exec_stream_of_ready d2 hureadyEq (by omega), exec_stream_of_ready d3 hready hlen, hend.ctr.symm,
    hend.cur.symm, hend.ks.symm, fun k hk => ?_, fun k hk => ?_⟩
  · exact (readByte_ctrXor_inside Config.built (a + b) s (by omega)).trans
      (readByte_ctrXor_inside Config.built a s hk).symm
  · calc readByte Config.built (ctrXor Config.built (a + b) s) (0x100 + (a + k))
      _ = readByte Config.built s (0x100 + (a + k)) ^^^ (takeKeystream Config.built (ctrXor Config.built (a + k) s)).1 :=
        readByte_ctrXor_inside Config.built (a + b) s (by omega)
      _ = readByte Config.built u (0x100 + k) ^^^ (takeKeystream Config.built (ctrXor Config.built k u)).1 := by
        rw [hreload k hk, (hsplit.ctrXor_add k).takeKeystream]
      _ = readByte Config.built (ctrXor Config.built b u) (0x100 + k) :=
        (readByte_ctrXor_inside Config.built b u hk).symm

/-- Settles O30: the second run takes the same keystream, and XORing the same byte in twice is no change. -/
theorem streamIsAnInvolution : Obligations.StreamIsAnInvolution := by
  intro d1 d2 n s t u hready huready hlen hfirst hkeys hnonce hctr hcur hks hreload
  obtain rfl := eq_of_exec_stream hready hlen hfirst
  have hsame : SameKeystream s u := ⟨hkeys, hnonce, hctr, hcur, hks⟩
  refine ⟨_, exec_stream_of_ready d2 huready hlen, fun k hk => ?_⟩
  calc readByte Config.built (ctrXor Config.built n u) (0x100 + k)
    _ = readByte Config.built u (0x100 + k) ^^^ (takeKeystream Config.built (ctrXor Config.built k u)).1 :=
      readByte_ctrXor_inside Config.built n u hk
    _ = readByte Config.built (ctrXor Config.built n s) (0x100 + k) ^^^
          (takeKeystream Config.built (ctrXor Config.built k s)).1 := by
      rw [hreload k hk, (hsame.ctrXor Config.built k).takeKeystream, readByte_succeed]
    _ = readByte Config.built s (0x100 + k) ^^^ (takeKeystream Config.built (ctrXor Config.built k s)).1 ^^^
          (takeKeystream Config.built (ctrXor Config.built k s)).1 :=
      congrArg (· ^^^ _) (readByte_ctrXor_inside Config.built n s hk)
    _ = readByte Config.built s (0x100 + k) := xor_cancel_right ..

/-! ### The seek operand (R169, R170) -/

/-- The bytes of a big-endian number are its digits to the base 256 (R56, R170). -/
theorem natOfBytes_map_range (f : Nat → Byte) (n : Nat) :
    natOfBytes ((List.range n).map f) =
      ((List.range n).map fun k => (f k).toNat * 2 ^ (8 * (n - 1 - k))).sum := by
  induction n with
  | zero => rfl
  | succ n ih =>
    have hshift : ∀ k ∈ List.range n, (f k).toNat * 2 ^ (8 * (n - k)) = (f k).toNat * 2 ^ (8 * (n - 1 - k)) * 256 := by
      intro k hk
      have hk := List.mem_range.1 hk
      rw [show 8 * (n - k) = 8 * (n - 1 - k) + 8 by omega, Nat.pow_add, Nat.mul_assoc]
    rw [List.range_succ, List.map_append, List.map_append, List.sum_append, List.map_singleton, List.map_singleton,
      List.sum_singleton, natOfBytes_append_singleton, ih, Nat.add_sub_cancel, Nat.sub_self,
      List.map_congr_left hshift, List.sum_map_mul_right, Nat.mul_zero, Nat.pow_zero, Nat.mul_one]

theorem natOfBytes_lt (bs : List Byte) : natOfBytes bs < 256 ^ bs.length := by
  induction bs using List.reverseRecOn with
  | nil => exact Nat.one_pos
  | append_singleton bs b ih =>
    have hb := b.isLt
    rw [natOfBytes_append_singleton, List.length_append, List.length_singleton, Nat.pow_succ]
    omega

/-- At most 8 bytes fit the counter, so it is the number they spell (R170). -/
theorem counterOfBytes_toNat {bs : List Byte} (hlen : bs.length ≤ 8) : (counterOfBytes bs).toNat = natOfBytes bs := by
  have hfits : 256 ^ bs.length ≤ 256 ^ 8 := Nat.pow_le_pow_right (by decide) hlen
  exact (BitVec.toNat_ofNat ..).trans (Nat.mod_eq_of_lt (Nat.lt_of_lt_of_le (natOfBytes_lt bs) hfits))

/-- "the missing high bytes are zero" (R170): leading zero bytes do not change the number. -/
theorem natOfBytes_replicate_zero_append (n : Nat) (bs : List Byte) :
    natOfBytes (List.replicate n 0#8 ++ bs) = natOfBytes bs := by
  induction n with
  | zero => rfl
  | succ n ih => exact ih

theorem map_range_getD (bs : List Byte) : (List.range bs.length).map (fun k => bs.getD k 0#8) = bs := by
  refine List.ext_getElem (by simp) fun k _ hk => ?_
  simp [hk]

/-- Settles O31; the rule's examples by evaluation. -/
theorem counterOfBytesIsBigEndian : Obligations.CounterOfBytesIsBigEndian := by
  refine ⟨fun bs hlen => ⟨?_, congrArg (BitVec.ofNat 64) (natOfBytes_replicate_zero_append _ bs)⟩, by decide, by decide,
    by decide, by decide, by decide⟩
  rw [counterOfBytes_toNat hlen, ← natOfBytes_map_range, map_range_getD]

theorem seekOperand_length (cfg : Config) (clen : Nat) (s : State) : (seekOperand cfg clen s).length = clen := by
  rw [seekOperand, List.length_map, List.length_range]

/-- Settles O32: the fields of `exec_ctrSeek_of_ready`. -/
theorem ctrSeekSetsTheCounter : Obligations.CtrSeekSetsTheCounter := by
  intro clen s hready hlen
  refine ⟨_, exec_ctrSeek_of_ready hready hlen, ?counter, rfl, rfl, rfl, hready, rfl, rfl, ⟨rfl, rfl⟩,
    fun _ => readByte_congr rfl rfl _, rfl, rfl, rfl⟩
  case counter =>
    refine (counterOfBytes_toNat ?_).trans (natOfBytes_map_range ..)
    rw [seekOperand_length]
    exact hlen

/-! ### The position along a run of the machine (R172) -/

/-- From `s` to `t` the stream commands processed `n` bytes and nothing else moved the position (R172). -/
structure Advances (n : Nat) (s t : State) : Prop where
  ready : t.ctrReady = s.ctrReady
  position : ∀ c0 j, PositionAt c0 j s → PositionAt c0 (j + n) t

theorem Advances.trans {m n : Nat} {s t u : State} (h : Advances m s t) (h' : Advances n t u) :
    Advances (m + n) s u :=
  ⟨h'.ready.trans h.ready, fun c0 j hs => Nat.add_assoc j m n ▸ h'.position c0 (j + m) (h.position c0 j hs)⟩

/-- What leaves the mode unit as it is does not move the position. -/
theorem SameMode.advances {s t : State} (h : SameMode s t) : Advances 0 s t := by
  obtain ⟨_, hctr, _, hcur, hready⟩ := h
  exact ⟨hready, fun _ _ hs => hs.congr hctr hcur⟩

theorem SameMode.refl (s : State) : SameMode s s := ⟨rfl, rfl, rfl, rfl, rfl⟩

/-- `j` bytes on from a position just set to `c0`, the cursor and the counter are what R172 says. -/
theorem Advances.cursor_counter {j : Nat} {c0 : Count} {s t : State} (h : Advances j s t) (hcur : s.cur = 24#5)
    (hctr : s.ctr = c0) :
    (j = 0 → t.cur = 24#5 ∧ t.ctr = c0) ∧
      (0 < j → t.cur.toNat = (j - 1) % 24 + 1 ∧ t.ctr.toNat = (c0.toNat + (j - 1) / 24 + 1) % 2 ^ 64) := by
  have hposition : PositionAt c0 j t := Nat.zero_add j ▸ h.position c0 0 (positionAt_zero hcur hctr)
  refine ⟨?_, hposition.of_pos⟩
  rintro rfl
  exact hposition.of_zero

theorem raise_sameMode (e : ErrCode) (s : State) : SameMode s (raise e s) := ⟨rfl, rfl, rfl, rfl, rfl⟩

theorem blockCommand_sameMode (cfg : Config) (f : Config → KeySet → Vector Byte 24 → Vector Byte 24) (dlen : Nat)
    (s : State) : SameMode s (blockCommand cfg f dlen s) := by
  rcases blockCommand_raise_or cfg f dlen s with ⟨e, _, h⟩ | ⟨_, _, h⟩ <;> rw [h]
  · exact raise_sameMode e s
  · exact (holdsBlock_storeBlock cfg _ s).mode

/-- On a ready CORE a stream command of legal length processes its bytes; of any other length it processes none. -/
theorem streamCommand_advances (cfg : Config) (dlen : Nat) {s : State} (hready : s.ctrReady = true) :
    Advances (if dlen ≤ cfg.dbufBytes then dlen else 0) s (streamCommand cfg dlen s) := by
  by_cases hlen : dlen ≤ cfg.dbufBytes
  · rw [if_pos hlen, streamCommand_of_ready cfg hready hlen]
    exact ⟨by simp, fun _ _ hs => (hs.ctrXor cfg dlen).congr rfl rfl⟩
  · rw [if_neg hlen, streamCommand_of_long hready (Nat.lt_of_not_le hlen)]
    exact (raise_sameMode _ s).advances

theorem execAll_cons {i : Instr} {is : List Instr} {s t : State} (h : exec i s = .next t) :
    execAll (i :: is) s = execAll is t := by
  simp only [execAll, h]

/-- Stream commands of legal length, one after another, process the sum of their lengths. -/
theorem execAll_streams_advances (cmds : List (Bool × Nat)) {s : State} (hready : s.ctrReady = true)
    (hlen : ∀ c ∈ cmds, c.2 ≤ Config.built.dbufBytes) :
    ∃ t, execAll (cmds.map fun c => streamInstr c.1 c.2) s = .next t ∧
      Advances (cmds.map fun c => c.2).sum s t := by
  induction cmds generalizing s with
  | nil => exact ⟨s, rfl, (SameMode.refl s).advances⟩
  | cons c cmds ih =>
    obtain ⟨hc, hrest⟩ := List.forall_mem_cons.1 hlen
    have hfirst := streamCommand_advances Config.built c.2 hready
    rw [if_pos hc] at hfirst
    obtain ⟨t, ht, hadvances⟩ := ih (hfirst.ready.trans hready) hrest
    exact ⟨t, (execAll_cons (exec_stream c.1 c.2 s)).trans ht, hfirst.trans hadvances⟩

/-- Settles O28. -/
theorem positionAfterStreamCommands : Obligations.PositionAfterStreamCommands := by
  intro cmds c0 s hready hcur hctr hlen
  obtain ⟨t, ht, hadvances⟩ := execAll_streams_advances cmds hready hlen
  exact ⟨t, ht, hadvances.cursor_counter hcur hctr⟩

/-- An event that runs no command processes no bytes. -/
theorem streamBytes_of_no_command (cfg : Config) {e : HostEvent} (h : eventCommand e = none) : streamBytes cfg e = 0 := by
  simp only [streamBytes, h]

/-- A write to `CMD` runs the command its word decodes to (R32). -/
theorem eventCommand_cmd {c : Word} {i : Instr} (h : decode c = .command i) :
    eventCommand (.write cmdAddr 4 c) = some i := by
  simp [eventCommand, h]

theorem eventCommand_illegal {c : Word} {why : IllegalWord} (h : decode c = .illegal why) :
    eventCommand (.write cmdAddr 4 c) = none := by
  simp [eventCommand, h]

/-- On a ready CORE a command that does not set the position anew moves it by the bytes it processes. -/
theorem exec_advances {e : HostEvent} {i : Instr} {s t : State} (hcommand : eventCommand e = some i)
    (hkeep : setsPosition e = false) (hready : s.ctrReady = true) (h : exec i s = .next t) :
    Advances (streamBytes Config.built e) s t := by
  simp only [setsPosition, hcommand, Bool.or_eq_false_iff] at hkeep
  simp only [streamBytes, hcommand]
  cases i <;> injection h with h <;> subst h
  case ciphInit klen => exact (ciphInit_sameMode Config.built klen s).advances
  case ciphEnc dlen => exact (blockCommand_sameMode Config.built encryptBlock dlen s).advances
  case ciphDec dlen => exact (blockCommand_sameMode Config.built decryptBlock dlen s).advances
  case ctrInit klen nlen =>
    rw [ctrInit_of_bad_length _ _ (by simpa using hkeep.2)]
    exact (raise_sameMode _ s).advances
  case ctrEnc dlen => exact streamCommand_advances Config.built dlen hready
  case ctrDec dlen => exact streamCommand_advances Config.built dlen hready
  case ctrSeek clen =>
    rw [ctrSeek_of_long _ hready (by simpa using hkeep.2)]
    exact (raise_sameMode _ s).advances

/-- The same of every event the port serves: only a command can touch the mode unit without a reset (R54). -/
theorem portEvent_advances {e : HostEvent} {s t : State} (hkeep : setsPosition e = false) (hready : s.ctrReady = true)
    (h : portEvent Config.built exec e s = .next t) : Advances (streamBytes Config.built e) s t := by
  rcases portEvent_next h with ⟨a, n, v, rfl, _, rfl⟩ | ⟨a, n, v, rfl, hwrite⟩ | ⟨rfl, _⟩
  · exact SameMode.advances ⟨rfl, rfl, rfl, rfl, rfl⟩
  · rcases memWrite_next hwrite with ⟨rfl, rfl, hexec⟩ | ⟨rfl, rfl, rfl⟩ | ⟨rfl, _, rfl⟩
    · rcases execWord_next hexec with ⟨i, hdecode, hi⟩ | ⟨_, hdecode, rfl⟩
      · exact exec_advances (eventCommand_cmd hdecode) hkeep hready hi
      · rw [streamBytes_of_no_command _ (eventCommand_illegal hdecode)]
        exact (raise_sameMode _ s).advances
    · exact (SameMode.refl t).advances
    · exact SameMode.advances ⟨rfl, rfl, rfl, rfl, rfl⟩
  · cases hkeep

/-- A run over listed events that do not set the position anew completes and moves it by the bytes they process. -/
theorem run_advances (k : Nat) {s : State} (hready : s.ctrReady = true)
    (hport : ∀ e ∈ s.port.take k, meaningful Config.built e = true ∧ setsPosition e = false) :
    ∃ t : State, Host.Core.run Sys2Proof.core k s = .next t ∧
      Advances ((s.port.take k).map (streamBytes Config.built)).sum s t := by
  induction k generalizing s with
  | zero => exact ⟨s, run_zero s, (SameMode.refl s).advances⟩
  | succ k ih =>
    cases hs : s.port with
    | nil =>
      obtain ⟨t, hrun, hadvances⟩ := ih hready (by simp [hs])
      rw [hs, List.take_nil] at hadvances
      exact ⟨t, (run_next k (step_nil hs)).trans hrun, hadvances⟩
    | cons e rest =>
      rw [hs, List.take_succ_cons, List.forall_mem_cons] at hport
      obtain ⟨⟨hlisted, hkeep⟩, hrest⟩ := hport
      obtain ⟨u, hevent⟩ := portEvent_of_meaningful hlisted { s with port := rest }
      have hfirst : Advances (streamBytes Config.built e) s u := by
        have htaken : SameMode s { s with port := rest } := SameMode.refl s
        simpa using htaken.advances.trans (portEvent_advances hkeep hready hevent)
      obtain ⟨t, hrun, hadvances⟩ := ih (hfirst.ready.trans hready) (by rwa [portEvent_port hevent])
      rw [portEvent_port hevent] at hadvances
      exact ⟨t, (run_next k ((step_cons hs).trans hevent)).trans hrun, hfirst.trans hadvances⟩

/-- Settles O58: the two commands that set the position, then the run from there. -/
theorem positionAlongAnyRun : Obligations.PositionAlongAnyRun := by
  refine ⟨fun klen s => ⟨_, exec_ctrInit_of_nonce klen s, rfl, rfl, rfl⟩,
    fun clen s hready hlen => ⟨_, exec_ctrSeek_of_ready hready hlen, hready, rfl, rfl⟩,
    fun k c0 s hready hcur hctr hport => ?_⟩
  obtain ⟨t, hrun, hadvances⟩ := run_advances k hready hport
  exact ⟨t, hrun, hadvances.ready.trans hready, hadvances.cursor_counter hcur hctr⟩

/-! ### The seek script at the port (R91, R178) -/

/-- A run goes on from where its first `m` steps led. -/
theorem run_add {m : Nat} (n : Nat) {s t : State} (h : Host.Core.run Sys2Proof.core m s = .next t) :
    Host.Core.run Sys2Proof.core (m + n) s = Host.Core.run Sys2Proof.core n t := by
  induction m generalizing s with
  | zero =>
    injection (run_zero s).symm.trans h with hst
    rw [hst, Nat.zero_add]
  | succ m ih =>
    obtain ⟨u, hstep, hrest⟩ := run_succ h
    rw [Nat.add_right_comm, run_next (m + n) hstep, ih hrest]

/-- Byte writes at rising addresses of the map are the run of writes they spell (R91). -/
theorem run_wrRun {a : Nat} {bs : List Byte} {rest : List HostEvent} {s : State}
    (hmapped : ∀ i, i < bs.length → bufferByteAt Config.built (a + i) = true)
    (hport : s.port = Script.wrRun a bs ++ rest) :
    Host.Core.run Sys2Proof.core (Script.wrRun a bs).length s = .next (writeBytes a bs { s with port := rest }) := by
  induction bs generalizing a s with
  | nil =>
    obtain rfl : s.port = rest := hport
    exact run_zero s
  | cons b bs ih =>
    have hstep := step_writeByte (hmapped 0 (Nat.zero_lt_succ _)) hport
    refine (run_next _ hstep).trans (ih (fun i hi => ?_) (writeByte_port ..))
    rw [Nat.add_right_comm, Nat.add_assoc]
    exact hmapped (i + 1) (Nat.succ_lt_succ hi)

/-- A mnemonic line runs its command (R90). -/
theorem step_issue {i : Instr} {rest : List HostEvent} {s : State} (hwf : i.wellFormed = true)
    (hport : s.port = Script.issue i :: rest) : step s = exec i { s with port := rest } :=
  stepRunsTheDecodedCommand s (encode i) i rest hport (decodeAndEncodeAreInverse.1 i hwf)

@[simp] theorem writeBytes_keys (a : Nat) (bs : List Byte) (s : State) : (writeBytes a bs s).keys = s.keys := by
  rw [writeBytes_eq]
@[simp] theorem writeBytes_nonce (a : Nat) (bs : List Byte) (s : State) : (writeBytes a bs s).nonce = s.nonce := by
  rw [writeBytes_eq]
@[simp] theorem writeBytes_ctrReady (a : Nat) (bs : List Byte) (s : State) :
    (writeBytes a bs s).ctrReady = s.ctrReady := by
  rw [writeBytes_eq]
@[simp] theorem writeBytes_port (a : Nat) (bs : List Byte) (s : State) : (writeBytes a bs s).port = s.port := by
  rw [writeBytes_eq]
@[simp] theorem writeBytes_answers (a : Nat) (bs : List Byte) (s : State) :
    (writeBytes a bs s).answers = s.answers := by
  rw [writeBytes_eq]

/-- The counter is read back from its bytes (R56, R170). -/
theorem counterOfBytes_bytes64 (c : Count) : counterOfBytes (bytes64 c).toList = c :=
  BitVec.eq_of_toNat_eq ((counterOfBytes_toNat (by simp)).trans (natOfBytes_bytes64 c))

/-- `SEEKBUF` holds the eight bytes written to it (R36, R91). -/
theorem seekOperand_writeBytes (cfg : Config) (c : Count) (s : State) :
    seekOperand cfg 8 (writeBytes (Buffer.seekbuf.addr 0) (bytes64 c).toList s) = (bytes64 c).toList := by
  refine List.ext_getElem (by simp [seekOperand_length]) fun k _ hk => ?_
  have hoffset : Buffer.seekbuf.addr k - Buffer.seekbuf.addr 0 = k := by simp [Buffer.addr]
  have hle : Buffer.seekbuf.addr 0 ≤ Buffer.seekbuf.addr k := by simp [Buffer.addr]
  simp only [seekOperand, List.getElem_map, List.getElem_range, bufferByte]
  rw [readByte_writeBytes, dif_pos ⟨hle, hoffset.symm ▸ hk⟩]
  simp only [hoffset]

theorem bufferByteAt_seekbuf (cfg : Config) {i : Nat} (hi : i < 8) :
    bufferByteAt cfg (Buffer.seekbuf.addr 0 + i) = true := by
  rw [bufferByteAt_iff]
  simp only [Buffer.addr, Buffer.base]
  omega

/-- In `t` the unit is ready and stands at byte `j` of the logical keystream from `c0`, with the KeySet, the nonce and the
answers of `s`, and `rest` is what the host has left to do (R171, R178). -/
structure StandsAt (cfg : Config) (c0 : Count) (j : Nat) (rest : List HostEvent) (s t : State) : Prop where
  port : t.port = rest
  answers : t.answers = s.answers
  keys : t.keys = s.keys
  nonce : t.nonce = s.nonce
  ready : t.ctrReady = true
  streamAt : StreamAt cfg c0 j t

/-- Of two moves in turn the second says where the unit stands. -/
theorem StandsAt.trans {cfg : Config} {c0 c1 : Count} {j k : Nat} {pending rest : List HostEvent} {s t u : State}
    (h : StandsAt cfg c0 j pending s t) (h' : StandsAt cfg c1 k rest { t with port := rest } u) :
    StandsAt cfg c1 k rest s u :=
  { h' with
    answers := h'.answers.trans h.answers
    keys := h'.keys.trans h.keys
    nonce := h'.nonce.trans h.nonce }

/-- A stream command moves the unit by the bytes it processes (R171). -/
theorem exec_stream_standsAt (decrypting : Bool) {c0 : Count} {j n : Nat} {s : State}
    (hat : StreamAt Config.built c0 j s) (hready : s.ctrReady = true) (hlen : n ≤ Config.built.dbufBytes) :
    ∃ t, exec (streamInstr decrypting n) s = .next t ∧ StandsAt Config.built c0 (j + n) s.port s t :=
  ⟨_, exec_stream_of_ready decrypting hready hlen, by simp, by simp, by simp, by simp, by simpa using hready,
    (hat.ctrXor n).succeed⟩

/-- CTR_SEEK with the eight bytes of `c` in `SEEKBUF` puts a ready CORE at byte 0 of the keystream from `c` (R169, R171). -/
theorem exec_ctrSeek_standsAt {c : Count} {s : State} (hready : s.ctrReady = true)
    (hbytes : seekOperand Config.built 8 s = (bytes64 c).toList) :
    ∃ t, exec (.ctrSeek 8) s = .next t ∧ StandsAt Config.built c 0 s.port s t := by
  refine ⟨_, exec_ctrSeek_of_ready hready (Nat.le_refl 8), rfl, rfl, rfl, rfl, hready,
    streamAt_zero_iff.2 ⟨rfl, ?_⟩⟩
  exact (congrArg counterOfBytes hbytes).trans (counterOfBytes_bytes64 c)

/-- `SEEKB` leaves its eight bytes in `SEEKBUF` and writes nothing else (R91). -/
theorem run_seekb {c : Count} {rest : List HostEvent} {s : State}
    (hport : s.port = Script.seekb (bytes64 c).toList ++ rest) :
    ∃ t : State, Host.Core.run Sys2Proof.core (Script.seekb (bytes64 c).toList).length s = .next t ∧
      seekOperand Config.built 8 t = (bytes64 c).toList ∧ t.port = rest ∧ t.answers = s.answers ∧ t.keys = s.keys ∧
      t.nonce = s.nonce ∧ t.ctrReady = s.ctrReady :=
  ⟨_, run_wrRun (fun _ hi => bufferByteAt_seekbuf _ (by simpa using hi)) hport, seekOperand_writeBytes ..,
    by simp, by simp, by simp, by simp, by simp⟩

/-- `CTR_SEEK64 c` puts a ready CORE at byte 0 of the keystream from `c` (R91). -/
theorem run_ctrSeek64 {c : Count} {rest : List HostEvent} {s : State} (hready : s.ctrReady = true)
    (hport : s.port = Script.ctrSeek64 c ++ rest) :
    ∃ t : State, Host.Core.run Sys2Proof.core (Script.ctrSeek64 c).length s = .next t ∧
      StandsAt Config.built c 0 rest s t := by
  rw [Script.ctrSeek64, List.append_assoc, List.singleton_append] at hport
  obtain ⟨u, hrun, hbytes, huport, hanswers, hkeys, hnonce, huready⟩ := run_seekb hport
  obtain ⟨t, hexec, hat⟩ := exec_ctrSeek_standsAt (s := { u with port := rest }) (huready.trans hready)
    ((seekOperand_congr (s := u) rfl rfl 8).trans hbytes)
  have hstep : step u = .next t := (step_issue (i := .ctrSeek 8) rfl huport).trans hexec
  refine ⟨t, ?_, { hat with
    answers := hat.answers.trans hanswers, keys := hat.keys.trans hkeys, nonce := hat.nonce.trans hnonce }⟩
  rw [Script.ctrSeek64, List.length_append, run_add _ hrun]
  exact (run_next 0 hstep).trans (run_zero t)

/-- Byte 0 from block `q` is byte `24 * q` from block 0 (R178). -/
theorem StreamAt.of_block {cfg : Config} {q : Nat} {s : State} (h : StreamAt cfg (BitVec.ofNat 64 q) 0 s) :
    StreamAt cfg 0#64 (24 * q) s := by
  obtain ⟨hcur, hctr⟩ := streamAt_zero_iff.1 h
  refine (streamAt_between (Nat.mul_mod_right 24 q)).2 ⟨hcur, ?_⟩
  rw [hctr, Nat.mul_div_cancel_left q (by decide), BitVec.zero_add]

/-- `CTR_SEEK_BYTE N` is the seek to block `N div 24` and a stream command over the `N mod 24` bytes before byte `N`,
left out when there are none (R91, R178). -/
theorem run_ctrSeekByte (N : Nat) {rest : List HostEvent} {s : State} (hready : s.ctrReady = true)
    (hport : s.port = Script.ctrSeekByte N ++ rest) :
    ∃ t : State, Host.Core.run Sys2Proof.core (Script.ctrSeekByte N).length s = .next t ∧
      StandsAt Config.built 0#64 N rest s t := by
  rw [Script.ctrSeekByte] at hport ⊢
  split_ifs at hport ⊢ with hN
  · rw [List.append_nil] at hport ⊢
    obtain ⟨t, hrun, hat⟩ := run_ctrSeek64 hready hport
    have hblock := hat.streamAt.of_block
    rw [Nat.mul_div_cancel' (Nat.dvd_of_mod_eq_zero hN)] at hblock
    exact ⟨t, hrun, { hat with streamAt := hblock }⟩
  · rw [List.append_assoc, List.singleton_append] at hport
    obtain ⟨u, hrun, hat⟩ := run_ctrSeek64 hready hport
    have hwf : (Instr.ctrEnc (N % 24)).wellFormed = true := decide_eq_true (by omega)
    have hstep := step_issue hwf hat.port
    obtain ⟨t, hexec, hend⟩ := exec_stream_standsAt false (s := { u with port := rest }) (n := N % 24)
      (hat.streamAt.of_block.congr rfl rfl rfl rfl rfl) hat.ready
      (by have := (dbufBytes_range Config.built).1; omega)
    rw [Nat.div_add_mod] at hend
    refine ⟨t, ?_, hat.trans hend⟩
    rw [List.length_append, run_add _ hrun]
    exact (run_next 0 (hstep.trans hexec)).trans (run_zero t)

/-- Settles O34. -/
theorem seekByteScriptReachesTheByte : Obligations.SeekByteScriptReachesTheByte := by
  intro N rest s hready _ hport
  obtain ⟨t, hrun, hat⟩ := run_ctrSeekByte N hready hport
  exact ⟨t, hrun, hat.port, hat.answers, hat.keys, hat.nonce, hat.ready, hat.streamAt⟩

end Sys2Proof.Machine
end

