-- ==== Sys2Proof/Proofs/Exceptions.lean ====
section
/-!
PROOF. The errors of the CORE (spec 60_exceptions.md): the result code of each command (R198), and that an error entry
writes the two error flags and nothing else (R196).
-/

namespace Sys2Proof.Machine

/-! ### The result code of each command (R198) -/

theorem blockCommand_lastErr (cfg : Config) (f : Config → KeySet → Vector Byte 24 → Vector Byte 24) (dlen : Nat)
    (s : State) :
    (blockCommand cfg f dlen s).lastErr =
      if s.keyed = false then .notInitialised else if dlen = 24 then .ok else .invalidLength := by
  rcases blockCommand_cases cfg f dlen s with ⟨hkeyed, h⟩ | ⟨hkeyed, hlen, h⟩ | ⟨hkeyed, hlen, h⟩ <;> rw [h]
  · simp [hkeyed]
  · simp [hkeyed, hlen]
  · simp [hkeyed, hlen]

theorem ctrInit_lastErr (cfg : Config) (klen nlen : Nat) (s : State) :
    (ctrInit cfg klen nlen s).lastErr = if nlen = 16 then .ok else .invalidLength := by
  rcases ctrInit_cases cfg klen nlen s with ⟨hlen, h⟩ | ⟨hlen, h⟩ <;> rw [h]
  · simp [hlen]
  · simp [hlen]

theorem streamCommand_lastErr (cfg : Config) (dlen : Nat) (s : State) :
    (streamCommand cfg dlen s).lastErr =
      if s.ctrReady = false then .notInitialised else if dlen ≤ cfg.dbufBytes then .ok else .invalidLength := by
  rcases streamCommand_cases cfg dlen s with ⟨hready, h⟩ | ⟨hready, hlen, h⟩ | ⟨hready, hlen, h⟩ <;> rw [h]
  · simp [hready]
  · simp [hready, hlen]
  · simp [hready, hlen]

theorem ctrSeek_lastErr (cfg : Config) (clen : Nat) (s : State) :
    (ctrSeek cfg clen s).lastErr =
      if s.ctrReady = false then .notInitialised else if clen ≤ 8 then .ok else .invalidLength := by
  rcases ctrSeek_cases cfg clen s with ⟨hready, h⟩ | ⟨hready, hlen, h⟩ | ⟨hready, hlen, h⟩ <;> rw [h]
  · simp [hready]
  · simp [hready, hlen]
  · simp [hready, hlen]

/-- The step that serves an illegal word is the error entry for it, the access being off the port (R85, R89, R193). -/
theorem step_illegal {c : Word} {why : IllegalWord} {rest : List HostEvent} {s : State}
    (hdecode : decode c = .illegal why) (hport : s.port = .write cmdAddr 4 c :: rest) :
    step s = .next (raise .illegalCommand { s with port := rest }) :=
  calc step s
    _ = memWrite Config.built exec cmdAddr 4 c { s with port := rest } := step_cons hport
    _ = execWord exec c { s with port := rest } := memWrite_cmd ..
    _ = .next (raise .illegalCommand { s with port := rest }) := by simp only [execWord, hdecode]

/-- Settles O35: the rows of the table are the `lastErr` lemmas; none needs the premise, which rules out the column
"ready but not keyed" (R40 (c)). -/
theorem outcomeTable : Obligations.OutcomeTable := by
  intro s _
  refine ⟨fun klen => ⟨_, exec_ciphInit klen s, succeed_lastErr _⟩, fun dlen i hi => ?_,
    fun klen nlen => ⟨_, exec_ctrInit klen nlen s, ctrInit_lastErr ..⟩, fun dlen i hi => ?_,
    fun clen => ⟨_, exec_ctrSeek clen s, ctrSeek_lastErr ..⟩,
    fun c why rest hdecode hport => ⟨_, step_illegal hdecode hport, raise_lastErr ..⟩⟩
  · rcases hi with rfl | rfl
    · exact ⟨_, exec_ciphEnc dlen s, blockCommand_lastErr ..⟩
    · exact ⟨_, exec_ciphDec dlen s, blockCommand_lastErr ..⟩
  · rcases hi with rfl | rfl
    · exact ⟨_, exec_ctrEnc dlen s, streamCommand_lastErr ..⟩
    · exact ⟨_, exec_ctrDec dlen s, streamCommand_lastErr ..⟩

/-! ### The error entry (R196) -/

/-- Settles O36: every command completes; one that did not succeed ended in `raise`, and so does an illegal word. -/
theorem failureChangesOnlyTheErrorFlags : Obligations.FailureChangesOnlyTheErrorFlags := by
  refine ⟨fun i s => ?_, fun s c why rest hdecode hport => step_illegal hdecode hport⟩
  obtain ⟨t, hexec, _⟩ := exec_completes i s
  refine ⟨t, hexec, fun hfail => ?_⟩
  rcases exec_next hexec with ⟨e, _, rfl⟩ | hsucceeds
  · rfl
  · exact absurd hsucceeds.lastErr hfail

end Sys2Proof.Machine
end
